-- ==== Sys2Proof/Word.lean ====
section
/-! DEFINITION. The bit-vector types of the machine (spec/00_scope.md R5, R7): all values are unsigned. -/

namespace Sys2Proof

/-- A general register, a timer, a byte of memory: 8 bits (R5 `XLEN`, `TLEN`). -/
abbrev Byte := BitVec 8

/-- PC, I, a call-stack entry, an opcode: 16 bits (R5 `PCLEN`, `ILEN`, `RALEN`). -/
abbrev Word := BitVec 16

/-- A register-index field `x` or `y`: each value selects one of the 16 registers (R91, R93). -/
abbrev RegIx := BitVec 4

/-- The 12-bit address field `nnn` (R91). -/
abbrev Addr := BitVec 12

/-- The 4-bit fields that are no register index: the sprite height `n`, and bits the encoding ignores (R91, R99). -/
abbrev Nibble := BitVec 4

end Sys2Proof
end

