-- ==== Sys2Proof/Syntax.lean ====
section
/-! DEFINITION. The instruction set (spec/30_encoding.md R95): one constructor per row of spec/opcode_table.json. Register
indices, immediates and ignored bits have exactly their field's width (R91), so every term is an instruction of the spec. -/

namespace Sys2Proof

/-- The 34 instructions. An argument `ign` holds the bits the encoding ignores (R99), kept so that an instruction can be
given back its word whole; no meaning reads them (log entry 13). -/
inductive Instr where
  /-- `CLS`, `0x0?E0` (R160). -/
  | cls (ign : Nibble)
  /-- `RET`, `0x0?EE` (R120). -/
  | ret (ign : Nibble)
  /-- `JP nnn`, `0x1nnn` (R121). -/
  | jp (nnn : Addr)
  /-- `CALL nnn`, `0x2nnn` (R122). -/
  | call (nnn : Addr)
  /-- `SE Vx,kk`, `0x3xkk` (R123). -/
  | seImm (x : RegIx) (kk : Byte)
  /-- `SNE Vx,kk`, `0x4xkk` (R124). -/
  | sneImm (x : RegIx) (kk : Byte)
  /-- `SE Vx,Vy`, `0x5xy?` (R125). -/
  | seReg (x y : RegIx) (ign : Nibble)
  /-- `LD Vx,kk`, `0x6xkk` (R140). -/
  | ldImm (x : RegIx) (kk : Byte)
  /-- `ADD Vx,kk`, `0x7xkk` (R141). -/
  | addImm (x : RegIx) (kk : Byte)
  /-- `LD Vx,Vy`, `0x8xy0` (R142). -/
  | ldReg (x y : RegIx)
  /-- `OR Vx,Vy`, `0x8xy1` (R143). -/
  | orReg (x y : RegIx)
  /-- `AND Vx,Vy`, `0x8xy2` (R144). -/
  | andReg (x y : RegIx)
  /-- `XOR Vx,Vy`, `0x8xy3` (R145). -/
  | xorReg (x y : RegIx)
  /-- `ADD Vx,Vy`, `0x8xy4` (R146). -/
  | addReg (x y : RegIx)
  /-- `SUB Vx,Vy`, `0x8xy5` (R147). -/
  | sub (x y : RegIx)
  /-- `SHR Vx`, `0x8xy6`, `y` ignored (R148). -/
  | shr (x : RegIx) (ign : Nibble)
  /-- `SUBN Vx,Vy`, `0x8xy7` (R149). -/
  | subn (x y : RegIx)
  /-- `SHL Vx`, `0x8xyE`, `y` ignored (R150). -/
  | shl (x : RegIx) (ign : Nibble)
  /-- `SNE Vx,Vy`, `0x9xy?` (R126). -/
  | sneReg (x y : RegIx) (ign : Nibble)
  /-- `LD I,nnn`, `0xAnnn` (R200). -/
  | ldI (nnn : Addr)
  /-- `JP V0,nnn`, `0xBnnn` (R127). -/
  | jpV0 (nnn : Addr)
  /-- `RND Vx,kk`, `0xCxkk` (R151). -/
  | rnd (x : RegIx) (kk : Byte)
  /-- `DRW Vx,Vy,n`, `0xDxyn` (R163). -/
  | drw (x y : RegIx) (n : Nibble)
  /-- `SKP Vx`, `0xEx9E` (R180). -/
  | skp (x : RegIx)
  /-- `SKNP Vx`, `0xExA1` (R181). -/
  | sknp (x : RegIx)
  /-- `LD Vx,DT`, `0xFx07` (R182). -/
  | ldVxDT (x : RegIx)
  /-- `LD Vx,K`, `0xFx0A` (R185). -/
  | ldVxK (x : RegIx)
  /-- `LD DT,Vx`, `0xFx15` (R183). -/
  | ldDTVx (x : RegIx)
  /-- `LD ST,Vx`, `0xFx18` (R184). -/
  | ldSTVx (x : RegIx)
  /-- `ADD I,Vx`, `0xFx1E` (R201). -/
  | addI (x : RegIx)
  /-- `LD F,Vx`, `0xFx29` (R202). -/
  | ldF (x : RegIx)
  /-- `LD B,Vx`, `0xFx33` (R203). -/
  | ldB (x : RegIx)
  /-- `LD [I],Vx`, `0xFx55` (R204). -/
  | storeRegs (x : RegIx)
  /-- `LD Vx,[I]`, `0xFx65` (R205). -/
  | loadRegs (x : RegIx)
  deriving DecidableEq, Repr

end Sys2Proof
end

