-- ==== Sys2Proof/WellFormed.lean ====
section
/-! DEFINITION. Well-formed instructions: what an assembler emits (spec/30_encoding.md R99). The field widths are in the types
of Syntax.lean, so the ignored bits are all there is to check. An instruction that is not well formed still decodes and runs. -/

namespace Sys2Proof

/-- The canonical form of R99: every ignored bit is 0. -/
def WellFormed : Instr → Bool
  | .cls ign => ign == 0
  | .ret ign => ign == 0
  | .jp _ => true
  | .call _ => true
  | .seImm _ _ => true
  | .sneImm _ _ => true
  | .seReg _ _ ign => ign == 0
  | .ldImm _ _ => true
  | .addImm _ _ => true
  | .ldReg _ _ => true
  | .orReg _ _ => true
  | .andReg _ _ => true
  | .xorReg _ _ => true
  | .addReg _ _ => true
  | .sub _ _ => true
  | .shr _ ign => ign == 0
  | .subn _ _ => true
  | .shl _ ign => ign == 0
  | .sneReg _ _ ign => ign == 0
  | .ldI _ => true
  | .jpV0 _ => true
  | .rnd _ _ => true
  | .drw _ _ _ => true
  | .skp _ => true
  | .sknp _ => true
  | .ldVxDT _ => true
  | .ldVxK _ => true
  | .ldDTVx _ => true
  | .ldSTVx _ => true
  | .addI _ => true
  | .ldF _ => true
  | .ldB _ => true
  | .storeRegs _ => true
  | .loadRegs _ => true

end Sys2Proof
end

