-- ==== Sys2Proof/Decode.lean ====
section
/-! DEFINITION. The decoder and the encoder (spec/30_encoding.md R90 to R99), and the opcode map of R95 as data. -/

namespace Sys2Proof

/-- `op[15:12]`, the primary dispatch nibble (R91). -/
def fieldT (op : Word) : Nibble := op.extractLsb' 12 4

/-- `op[11:0]` (R91). -/
def fieldNnn (op : Word) : Addr := op.extractLsb' 0 12

/-- `op[11:8]` (R91). -/
def fieldX (op : Word) : RegIx := op.extractLsb' 8 4

/-- `op[7:4]` (R91). -/
def fieldY (op : Word) : RegIx := op.extractLsb' 4 4

/-- `op[7:0]` (R91). -/
def fieldKk (op : Word) : Byte := op.extractLsb' 0 8

/-- `op[3:0]` (R91). -/
def fieldN (op : Word) : Nibble := op.extractLsb' 0 4

/-- Family 0: on the low byte, `op[11:8]` ignored (R94, R98). -/
def decodeFamily0 (op : Word) : Option Instr :=
  match (fieldKk op).toNat with
  | 0xE0 => some (.cls (fieldX op))
  | 0xEE => some (.ret (fieldX op))
  | _ => none

/-- Family 8: on the low nibble (R94). -/
def decodeFamily8 (op : Word) : Option Instr :=
  match (fieldN op).toNat with
  | 0x0 => some (.ldReg (fieldX op) (fieldY op))
  | 0x1 => some (.orReg (fieldX op) (fieldY op))
  | 0x2 => some (.andReg (fieldX op) (fieldY op))
  | 0x3 => some (.xorReg (fieldX op) (fieldY op))
  | 0x4 => some (.addReg (fieldX op) (fieldY op))
  | 0x5 => some (.sub (fieldX op) (fieldY op))
  | 0x6 => some (.shr (fieldX op) (fieldY op))
  | 0x7 => some (.subn (fieldX op) (fieldY op))
  | 0xE => some (.shl (fieldX op) (fieldY op))
  | _ => none

/-- Family E: on the low byte (R94, 92 D5). -/
def decodeFamilyE (op : Word) : Option Instr :=
  match (fieldKk op).toNat with
  | 0x9E => some (.skp (fieldX op))
  | 0xA1 => some (.sknp (fieldX op))
  | _ => none

/-- Family F: on the low byte (R94, 92 D5). -/
def decodeFamilyF (op : Word) : Option Instr :=
  match (fieldKk op).toNat with
  | 0x07 => some (.ldVxDT (fieldX op))
  | 0x0A => some (.ldVxK (fieldX op))
  | 0x15 => some (.ldDTVx (fieldX op))
  | 0x18 => some (.ldSTVx (fieldX op))
  | 0x1E => some (.addI (fieldX op))
  | 0x29 => some (.ldF (fieldX op))
  | 0x33 => some (.ldB (fieldX op))
  | 0x55 => some (.storeRegs (fieldX op))
  | 0x65 => some (.loadRegs (fieldX op))
  | _ => none

/-- The decoder (R94): total; `none` is the verdict *unknown* (R97). The opcode numbers are PRESUMED (spec/ takes them from
general knowledge, R95, 93 G1); unsafe for a claim about a particular word (log entry 5). -/
def decode (op : Word) : Option Instr :=
  match (fieldT op).toNat with
  | 0x0 => decodeFamily0 op
  | 0x1 => some (.jp (fieldNnn op))
  | 0x2 => some (.call (fieldNnn op))
  | 0x3 => some (.seImm (fieldX op) (fieldKk op))
  | 0x4 => some (.sneImm (fieldX op) (fieldKk op))
  | 0x5 => some (.seReg (fieldX op) (fieldY op) (fieldN op))
  | 0x6 => some (.ldImm (fieldX op) (fieldKk op))
  | 0x7 => some (.addImm (fieldX op) (fieldKk op))
  | 0x8 => decodeFamily8 op
  | 0x9 => some (.sneReg (fieldX op) (fieldY op) (fieldN op))
  | 0xA => some (.ldI (fieldNnn op))
  | 0xB => some (.jpV0 (fieldNnn op))
  | 0xC => some (.rnd (fieldX op) (fieldKk op))
  | 0xD => some (.drw (fieldX op) (fieldY op) (fieldN op))
  | 0xE => decodeFamilyE op
  | _ => decodeFamilyF op

/-- Why a string of bytes gives no instruction. -/
inductive Reject where
  /-- The opcode matches no row of R95; the Step raises UnknownOpcode (R97, R221). -/
  | unknownOpcode (op : Word)
  /-- Fewer than two bytes (R90). -/
  | truncated
  deriving DecidableEq, Repr

/-- The opcode of two bytes, the first the most significant (R64). -/
def opcodeOf (hi lo : Byte) : Word := hi.setWidth 16 <<< 8 ||| lo.setWidth 16

/-- Decode the front of a string of bytes: the instruction and the bytes after it (R64, R90, R94). -/
def decodeBytes : List Byte → Except Reject (Instr × List Byte)
  | hi :: lo :: rest =>
    match decode (opcodeOf hi lo) with
    | some i => .ok (i, rest)
    | none => .error (.unknownOpcode (opcodeOf hi lo))
  | _ => .error .truncated

/-- The bytes of an opcode, as they lie in memory: `op[15:8]` at the lower address (R64, R90). -/
def bytesOf (op : Word) : List Byte := [op.extractLsb' 8 8, op.extractLsb' 0 8]

/-- The instruction the decoder reads from an opcode-table word: `nbits` bits of `w`, every bit above them 0, laid out as the
hardware stores it. -/
def decodeTableWord (nbits w : Nat) : Option Instr :=
  match decodeBytes (bytesOf (BitVec.ofNat 16 (w % 2 ^ nbits))) with
  | .ok (i, _) => some i
  | .error _ => none

/-- Format NNN (R92): `t ++ nnn`, `t` in bits 15 to 12. -/
def packNnn (t : Nibble) (nnn : Addr) : Word := t.setWidth 16 <<< 12 ||| nnn.setWidth 16

/-- Formats FIXED, XKK and X (R92): `t ++ x ++ kk`. -/
def packXKk (t : Nibble) (x : RegIx) (kk : Byte) : Word := t.setWidth 16 <<< 12 ||| x.setWidth 16 <<< 8 ||| kk.setWidth 16

/-- Formats XY and XYN (R92): `t ++ x ++ y ++ n`. -/
def packXYN (t : Nibble) (x y : RegIx) (n : Nibble) : Word :=
  t.setWidth 16 <<< 12 ||| x.setWidth 16 <<< 8 ||| y.setWidth 16 <<< 4 ||| n.setWidth 16

/-- The encoder, from the pattern column of R95. -/
def encode : Instr → Word
  | .cls ign => packXKk 0x0 ign 0xE0
  | .ret ign => packXKk 0x0 ign 0xEE
  | .jp nnn => packNnn 0x1 nnn
  | .call nnn => packNnn 0x2 nnn
  | .seImm x kk => packXKk 0x3 x kk
  | .sneImm x kk => packXKk 0x4 x kk
  | .seReg x y ign => packXYN 0x5 x y ign
  | .ldImm x kk => packXKk 0x6 x kk
  | .addImm x kk => packXKk 0x7 x kk
  | .ldReg x y => packXYN 0x8 x y 0x0
  | .orReg x y => packXYN 0x8 x y 0x1
  | .andReg x y => packXYN 0x8 x y 0x2
  | .xorReg x y => packXYN 0x8 x y 0x3
  | .addReg x y => packXYN 0x8 x y 0x4
  | .sub x y => packXYN 0x8 x y 0x5
  | .shr x ign => packXYN 0x8 x ign 0x6
  | .subn x y => packXYN 0x8 x y 0x7
  | .shl x ign => packXYN 0x8 x ign 0xE
  | .sneReg x y ign => packXYN 0x9 x y ign
  | .ldI nnn => packNnn 0xA nnn
  | .jpV0 nnn => packNnn 0xB nnn
  | .rnd x kk => packXKk 0xC x kk
  | .drw x y n => packXYN 0xD x y n
  | .skp x => packXKk 0xE x 0x9E
  | .sknp x => packXKk 0xE x 0xA1
  | .ldVxDT x => packXKk 0xF x 0x07
  | .ldVxK x => packXKk 0xF x 0x0A
  | .ldDTVx x => packXKk 0xF x 0x15
  | .ldSTVx x => packXKk 0xF x 0x18
  | .addI x => packXKk 0xF x 0x1E
  | .ldF x => packXKk 0xF x 0x29
  | .ldB x => packXKk 0xF x 0x33
  | .storeRegs x => packXKk 0xF x 0x55
  | .loadRegs x => packXKk 0xF x 0x65

/-- The bytes of an instruction in memory. -/
def encodeBytes (i : Instr) : List Byte := bytesOf (encode i)

/-- A row of the opcode map of R95. -/
structure Row where
  mask : Word
  bits : Word
  deriving DecidableEq, Repr

/-- An opcode selects a row when `op AND mask = match` (R95). -/
def Row.selects (r : Row) (op : Word) : Bool := op &&& r.mask == r.bits

/-- The row of R95 that an instruction belongs to. -/
def rowOf : Instr → Row
  | .cls _ => ⟨0xF0FF, 0x00E0⟩
  | .ret _ => ⟨0xF0FF, 0x00EE⟩
  | .jp _ => ⟨0xF000, 0x1000⟩
  | .call _ => ⟨0xF000, 0x2000⟩
  | .seImm _ _ => ⟨0xF000, 0x3000⟩
  | .sneImm _ _ => ⟨0xF000, 0x4000⟩
  | .seReg _ _ _ => ⟨0xF000, 0x5000⟩
  | .ldImm _ _ => ⟨0xF000, 0x6000⟩
  | .addImm _ _ => ⟨0xF000, 0x7000⟩
  | .ldReg _ _ => ⟨0xF00F, 0x8000⟩
  | .orReg _ _ => ⟨0xF00F, 0x8001⟩
  | .andReg _ _ => ⟨0xF00F, 0x8002⟩
  | .xorReg _ _ => ⟨0xF00F, 0x8003⟩
  | .addReg _ _ => ⟨0xF00F, 0x8004⟩
  | .sub _ _ => ⟨0xF00F, 0x8005⟩
  | .shr _ _ => ⟨0xF00F, 0x8006⟩
  | .subn _ _ => ⟨0xF00F, 0x8007⟩
  | .shl _ _ => ⟨0xF00F, 0x800E⟩
  | .sneReg _ _ _ => ⟨0xF000, 0x9000⟩
  | .ldI _ => ⟨0xF000, 0xA000⟩
  | .jpV0 _ => ⟨0xF000, 0xB000⟩
  | .rnd _ _ => ⟨0xF000, 0xC000⟩
  | .drw _ _ _ => ⟨0xF000, 0xD000⟩
  | .skp _ => ⟨0xF0FF, 0xE09E⟩
  | .sknp _ => ⟨0xF0FF, 0xE0A1⟩
  | .ldVxDT _ => ⟨0xF0FF, 0xF007⟩
  | .ldVxK _ => ⟨0xF0FF, 0xF00A⟩
  | .ldDTVx _ => ⟨0xF0FF, 0xF015⟩
  | .ldSTVx _ => ⟨0xF0FF, 0xF018⟩
  | .addI _ => ⟨0xF0FF, 0xF01E⟩
  | .ldF _ => ⟨0xF0FF, 0xF029⟩
  | .ldB _ => ⟨0xF0FF, 0xF033⟩
  | .storeRegs _ => ⟨0xF0FF, 0xF055⟩
  | .loadRegs _ => ⟨0xF0FF, 0xF065⟩

/-- The opcode map of R95, in its order: 34 rows. -/
def opcodeTable : List Row :=
  [.cls 0, .ret 0, .jp 0, .call 0, .seImm 0 0, .sneImm 0 0, .seReg 0 0 0, .ldImm 0 0, .addImm 0 0, .ldReg 0 0, .orReg 0 0,
   .andReg 0 0, .xorReg 0 0, .addReg 0 0, .sub 0 0, .shr 0 0, .subn 0 0, .shl 0 0, .sneReg 0 0 0, .ldI 0, .jpV0 0,
   .rnd 0 0, .drw 0 0 0, .skp 0, .sknp 0, .ldVxDT 0, .ldVxK 0, .ldDTVx 0, .ldSTVx 0, .addI 0, .ldF 0, .ldB 0,
   .storeRegs 0, .loadRegs 0].map rowOf

end Sys2Proof
end

