-- ==== Sys2Proof/Config.lean ====
section
/-! DEFINITION. The implementation parameters (spec/00_scope.md R5, spec/92_eei_decisions.md "Open parameters") and the free
values. The parameters are plain data that State carries, so a statement about every state holds for every value of them. -/

namespace Sys2Proof

/-- The 80 bytes of the font table (R5 `FONT`, R67). -/
abbrev Font := Vector Byte 80

/-- `ACC_ARITH`, the number format of the two scheduler accumulators (R35): exact rationals (the default), or some other
format, whose rounding is the free function `Config.accRound`. -/
inductive AccArith where
  | exact
  | rounded
  deriving DecidableEq, Repr

/-- The configuration (R5): fixed while the machine runs, left alone by reset (R34, R272). -/
structure Config where
  /-- `FONT`: what reset writes at 0x000 to 0x04F (R67). -/
  font : Font
  /-- `FREQ`: Steps per second of Run; a positive number (R34). -/
  freq : Rat
  /-- `STEPS_PER_TICK`: Steps of one Tick (R34, R240). -/
  stepsPerTick : Nat
  /-- `STACK_DEPTH`: most entries of the call stack; `none` is unbounded (R29). -/
  stackDepth : Option Nat
  /-- `ACC_ARITH` (R35). -/
  accArith : AccArith
  deriving DecidableEq, Repr

/-- `MEM_SIZE` (R5, R60). -/
abbrev Config.memSize : Nat := 4096

/-- `ENTRY`: PC after reset and first byte of a loaded program (R5, R44, R68). -/
abbrev Config.entry : Word := 0x200

/-- `GLYPH_BYTES` (R5, R202). -/
abbrev Config.glyphBytes : Nat := 5

/-- The timer period in milliseconds, 1000 / `TIMER_HZ` (R5, R241). -/
abbrev Config.period : Rat := 1000 / 60

/-- The default font table of R67. PRESUMED: spec/ takes it from general knowledge (93 G4); unsafe for a claim that rests on
a glyph's bytes (log entry 1). -/
def Config.defaultFont : Font :=
  #v[0xF0, 0x90, 0x90, 0x90, 0xF0,
     0x20, 0x60, 0x20, 0x20, 0x70,
     0xF0, 0x10, 0xF0, 0x80, 0xF0,
     0xF0, 0x10, 0xF0, 0x10, 0xF0,
     0x90, 0x90, 0xF0, 0x10, 0x10,
     0xF0, 0x80, 0xF0, 0x10, 0xF0,
     0xF0, 0x80, 0xF0, 0x90, 0xF0,
     0xF0, 0x10, 0x20, 0x40, 0x40,
     0xF0, 0x90, 0xF0, 0x90, 0xF0,
     0xF0, 0x90, 0xF0, 0x10, 0xF0,
     0xF0, 0x90, 0xF0, 0x90, 0x90,
     0xE0, 0x90, 0xE0, 0x90, 0xE0,
     0xF0, 0x80, 0x80, 0x80, 0xF0,
     0xE0, 0x90, 0x90, 0x90, 0xE0,
     0xF0, 0x80, 0xF0, 0x80, 0xF0,
     0xF0, 0x80, 0xF0, 0x80, 0x80]

/-- The defaults of R5. `FREQ` has none; 600 (the document's example, R242) is a DESIGN CHOICE, unsafe for a claim that rests
on it (log entry 2). -/
def Config.default : Config where
  font := Config.defaultFont
  freq := 600
  stepsPerTick := 10
  stackDepth := none
  accArith := .exact

/-- FREE VALUE: the key levels of the n-th sample when the outside has announced none (R38, 92 D23; log entry 3). Safe. -/
opaque Config.freeKeys : Nat → BitVec 16

/-- FREE VALUE: the random byte of the n-th sample when the outside has announced none (R151, 93 U6; log entry 3). Safe. -/
opaque Config.freeRnd : Nat → Byte

/-- FREE VALUE: the rounding of an accumulator format other than exact (R35, 93 U14; log entry 9). Safe. -/
opaque Config.accRound : Rat → Rat

/-- What an accumulator holds after it is assigned `q` (R35, R241). -/
def AccArith.round : AccArith → Rat → Rat
  | .exact, q => q
  | .rounded, q => Config.accRound q

end Sys2Proof
end

