-- ==== Sys2Proof/Machine/State.lean ====
section
/-! DEFINITION. The state of the machine as plain data (spec/10_state.md), and its reset (R43 to R45, R270). -/

namespace Sys2Proof.Machine

/-- The five causes of a halt (spec/60_exceptions.md R224). -/
inductive Cause where
  | unknownOpcode
  | stackUnderflow
  | outOfRangeAddress
  | keyIndexOutOfRange
  | stackOverflow
  deriving DecidableEq, Repr

/-- The halt record (R224): cause, `halt_info`, and `halt_pc`, the address the Step fetched from. -/
structure HaltRecord where
  cause : Cause
  info : Word
  haltPc : Word
  deriving DecidableEq, Repr

/-- `MODE` (R32). The argument of `waitKey` is the key-wait target latch (R33), that of `halted` the halt record. -/
inductive Mode where
  | running
  | waitKey (t : RegIx)
  | halted (r : HaltRecord)
  deriving DecidableEq, Repr

/-- The inputs a Step samples (R6, R38, R40): the 16 key levels, `keys[k]` being bit `k`, and the random byte. -/
structure Pins where
  keys : BitVec 16
  rnd : Byte
  deriving DecidableEq, Repr

/-- The display surface (R37): 32 rows; bit `c` of row `r` is the pixel `DISP[r][c]`. -/
abbrev Display := Vector (BitVec 64) 32

/-- The contents of memory: the bytes that differ from what reset leaves there, by rising address (`Memory.wf`). -/
abbrev Memory := List Host.Cell

/-- Everything the spec gives the machine. `pending` and `samples` are the model's own (log entry 3). -/
structure State where
  /-- `V[0]` to `V[15]`; `VF` is `V[15]` (R20, R21). -/
  v : Vector Byte 16
  /-- PC (R23). -/
  pc : Word
  /-- The index register I (R28). -/
  i : Word
  /-- The delay timer DT (R31). -/
  dt : Byte
  /-- The sound timer ST (R31). -/
  st : Byte
  /-- The call stack, its last element the top (R29). -/
  stack : List Word
  /-- MODE (R32). -/
  mode : Mode
  /-- MEM (R36). -/
  mem : Memory
  /-- DISP (R37). -/
  disp : Display
  /-- ACC_STEP (R35). -/
  accStep : Rat
  /-- ACC_TIMER, in milliseconds (R35). -/
  accTimer : Rat
  /-- The configuration (R5, R34). -/
  config : Config
  /-- The inputs as the latest Step sampled them (R38). -/
  pins : Pins
  /-- Inputs the outside has announced for the coming Steps, oldest first. -/
  pending : List Pins
  /-- How many samples have been taken: the argument of the free values. -/
  samples : Nat
  deriving DecidableEq, Repr

/-- The state right after construction with the configuration `c`, which is the state after reset (R43, R45). Memory lists
nothing: an unlisted byte reads as reset leaves it (`Memory.initial`). -/
def State.powerOn (c : Config) : State where
  v := Vector.replicate 16 0
  pc := Config.entry
  i := 0
  dt := 0
  st := 0
  stack := []
  mode := .running
  mem := []
  disp := Vector.replicate 32 0
  accStep := 0
  accTimer := 0
  config := c
  pins := ⟨0, 0⟩
  pending := []
  samples := 0

/-- The machine right after reset (R45), with the default configuration of R5. -/
def State.reset : State := State.powerOn Config.default

/-- Faults. No Step faults: every fatal error of R221 to R225 is a state of the machine, `Mode.halted`. -/
inductive Fault where
  /-- Raised by Run alone, and only with a rounded `ACC_ARITH`: the loop has not ended two passes after exact arithmetic would
  have ended it, which is more than the "±1 due to rounding" of R241. Safe. -/
  | schedulerRounding
  deriving DecidableEq, Repr

/-- Refusals. No Step refuses. -/
inductive Refusal where
  /-- Raised by exec's arm of an instruction that has no meaning yet; no arm of this model raises it. Safe. -/
  | notModelled (mnemonic : String)
  /-- Raised by Run: a negative elapsed time or a `FREQ` that is not positive (93 U10). Safe. -/
  | runOutsideContract
  deriving DecidableEq, Repr

/-- What a Step, and every operation of the host port, answers. -/
abbrev Result := Host.Outcome State Fault Refusal

end Sys2Proof.Machine
end

