-- ==== Sys2Proof/Machine/Flags.lean ====
section
/-! DEFINITION. Every flag computation (spec/10_state.md R27, spec/41_alu.md R139). A flag is always the byte 0x00 or 0x01
(R21); `VF` is the only place it goes. -/

namespace Sys2Proof.Machine

/-- The flag value of a condition (R21). -/
def flag (b : Bool) : Byte := if b then 1 else 0

/-- `ADD Vx,Vy`: 1 iff the exact sum exceeds 255 (R146). -/
def carryFlag (a b : Byte) : Byte := flag (decide (a.toNat + b.toNat > 255))

/-- `SUB` with minuend `a`, `SUBN` with the operands swapped: 1 iff `a > b`, so 0 on equal operands (R147, R149; 93 W1). -/
def notBorrowFlag (a b : Byte) : Byte := flag (decide (a.toNat > b.toNat))

/-- `SHR`: bit 0 of the old value (R148). -/
def lowBitFlag (a : Byte) : Byte := flag (a.getLsbD 0)

/-- `SHL`: bit 7 of the old value (R150). -/
def highBitFlag (a : Byte) : Byte := flag (a.getLsbD 7)

/-- `ADD I,Vx`: 1 iff the exact sum exceeds 0xFFFF (R201; 93 W3). -/
def indexOverflowFlag (i : Word) (a : Byte) : Byte := flag (decide (i.toNat + a.toNat > 0xFFFF))

end Sys2Proof.Machine
end

