-- ==== Sys2Proof/Machine/Memory.lean ====
section
/-! DEFINITION. The memory controller (spec/20_memory.md): one flat space of 4096 bytes, held as the bytes that differ from
what reset leaves, in one canonical form. -/

namespace Sys2Proof.Machine

/-- What reset leaves at an address, and what an unlisted address reads as: the font at 0x000 to 0x04F, 0x00 elsewhere
(R67, R76; 92 D14). -/
def Memory.initial (font : Font) (a : Nat) : Byte :=
  if h : a < 80 then font[a] else 0

/-- The canonical form: every address in the space, addresses strictly rising, and no byte equal to what reset leaves. -/
abbrev Memory.wf (font : Font) (m : Memory) : Prop :=
  m.Pairwise (fun c d => c.1 < d.1) ∧ ∀ c ∈ m, c.1 < Config.memSize ∧ c.2 ≠ Memory.initial font c.1

/-- The byte at an address (R62). -/
def Memory.read (font : Font) (m : Memory) (a : Nat) : Byte :=
  (m.lookup a).getD (Memory.initial font a)

/-- Take an address off the list. -/
def Memory.erase (a : Nat) (m : Memory) : Memory := m.filter fun c => c.1 != a

/-- Put a byte on the list at its address's place. -/
def Memory.insert (a : Nat) (b : Byte) : Memory → Memory
  | [] => [(a, b)]
  | c :: m =>
    if a < c.1 then (a, b) :: c :: m
    else if c.1 = a then (a, b) :: m
    else c :: Memory.insert a b m

/-- Store a byte (R63): an address outside the space leaves memory unchanged. -/
def Memory.write (font : Font) (m : Memory) (a : Nat) (b : Byte) : Memory :=
  if a < Config.memSize then
    if b = Memory.initial font a then Memory.erase a m else Memory.insert a b m
  else m

/-- Store bytes at ascending addresses (R64, R69). -/
def Memory.writeBytes (font : Font) (m : Memory) (a : Nat) : List Byte → Memory
  | [] => m
  | b :: bs => Memory.writeBytes font (Memory.write font m a b) (a + 1) bs

end Sys2Proof.Machine
end

