-- ==== Sys2Proof/Machine/Ops.lean ====
section
/-! DEFINITION. The named operations over the state: registers, program counter, raising a fatal error, the call stack, memory
accesses, the fetch, the input sample and the key poll. -/

namespace Sys2Proof.Machine

/-- Read `V[x]` (R8, R20). -/
def State.reg (s : State) (x : RegIx) : Byte := s.v[x.toNat]'(x.isLt)

/-- Write `V[x]` (R8, R20). -/
def State.setReg (s : State) (x : RegIx) (b : Byte) : State := { s with v := s.v.set x.toNat b x.isLt }

/-- Write `VF` as a flag (R21). -/
def State.setVF (s : State) (f : Byte) : State := s.setReg 15 f

/-- Write PC. -/
def State.setPc (s : State) (t : Word) : State := { s with pc := t }

/-- Write I. -/
def State.setI (s : State) (w : Word) : State := { s with i := w }

/-- The fetch's advance of PC by 2 (R24, R220). -/
def State.advancePc (s : State) : State := s.setPc (s.pc + 2)

/-- A skip: `PC <- trunc_16(PC + 2)` when the condition holds (R119, R123). -/
def State.skipIf (s : State) (c : Bool) : State := if c then s.setPc (s.pc + 2) else s

/-- MODE is Halted. -/
def State.isHalted (s : State) : Bool :=
  match s.mode with
  | .halted _ => true
  | _ => false

/-- `raise E(info)` with a given `halt_pc`: MODE becomes Halted with its record, and nothing else changes (R224, R226). There
is no handler and no return: only reset leaves Halted (R227). -/
def State.raiseAt (s : State) (haltPc : Word) (c : Cause) (info : Word) : State :=
  { s with mode := .halted ⟨c, info, haltPc⟩ }

/-- `raise E(info)` while an instruction executes: PC is already the address of the instruction plus 2 (R24), so `halt_pc`,
the address the Step fetched from (R224), is PC minus 2 (DEDUCED, safe: log entry 18). -/
def State.raise (s : State) (c : Cause) (info : Word) : State := s.raiseAt (s.pc - 2) c info

/-- `push` (R29): StackOverflow(v) when the stack holds `STACK_DEPTH` entries; unbounded, it never raises. -/
def State.push (s : State) (w : Word) : Except (Cause × Word) State :=
  if s.config.stackDepth = some s.stack.length then .error (.stackOverflow, w)
  else .ok { s with stack := s.stack ++ [w] }

/-- `pop` (R29): StackUnderflow when the stack is empty. -/
def State.pop (s : State) : Except (Cause × Word) (Word × State) :=
  match s.stack.getLast? with
  | none => .error (.stackUnderflow, 0)
  | some t => .ok (t, { s with stack := s.stack.dropLast })

/-- The byte memory holds at an address. -/
def State.byteAt (s : State) (a : Nat) : Byte := Memory.read s.config.font s.mem a

/-- `MemRead(a, 1)`: an address of 4096 or more raises OutOfRangeAddress(a) (R62). -/
def State.memRead (s : State) (a : Nat) : Except Nat Byte :=
  if a < Config.memSize then .ok (s.byteAt a) else .error a

/-- The bytes at `base`, `base + 1`, ..., in ascending order; the range is checked before (R69). -/
def State.loadBytes (s : State) (base len : Nat) : List Byte := (List.range len).map fun k => s.byteAt (base + k)

/-- Store bytes at `base`, `base + 1`, ..., in ascending order; the range is checked before (R63, R69). -/
def State.storeBytes (s : State) (base : Nat) (bs : List Byte) : State :=
  { s with mem := Memory.writeBytes s.config.font s.mem base bs }

/-- The range check of a multi-byte access (R69): the lowest address out of range, if there is one. -/
def spanFault (base len : Nat) : Option Nat :=
  if 0 < len ∧ base + len - 1 > 4095 then some (max base 4096) else none

/-- `Fetch(PC)`: the two bytes at PC and PC + 1, the first the most significant; the error is the first address out of range
(R64). -/
def State.fetch (s : State) : Except Nat Word :=
  match s.memRead s.pc.toNat with
  | .error a => .error a
  | .ok hi =>
    match s.memRead (s.pc.toNat + 1) with
    | .error a => .error a
    | .ok lo => .ok (opcodeOf hi lo)

/-- The inputs the next Step samples: the oldest announced, else free values (R38, R151; log entry 3). -/
def State.nextPins (s : State) : Pins :=
  match s.pending with
  | p :: _ => p
  | [] => ⟨Config.freeKeys s.samples, Config.freeRnd s.samples⟩

/-- Sample the inputs, once in a Step (R38). -/
def State.sample (s : State) : State :=
  { s with pins := s.nextPins, pending := s.pending.tail, samples := s.samples + 1 }

/-- `KeyHeld(k)` (R8, R179). -/
def State.keyHeld (s : State) (k : Nat) : Bool := s.pins.keys.getLsbD k

/-- `FirstKey()`: the least held key (R8, R179). -/
def State.firstKey (s : State) : Option Nat := (List.range 16).find? s.keyHeld

/-- The body of a Step in WaitKey(t): no fetch; the lowest held key, if there is one, goes to `V[t]` and ends the wait (R186). -/
def State.poll (s : State) (t : RegIx) : State :=
  match s.firstKey with
  | none => s
  | some k => { s.setReg t (BitVec.ofNat 8 k) with mode := .running }

end Sys2Proof.Machine
end

