-- ==== Sys2Proof/Machine/Operands.lean ====
section
/-! DEFINITION. The operand forms (spec/30_encoding.md R93, spec/44_index_memory.md R199): zero-extended address, register
block, decimal digits, font address. There is no other addressing mode. -/

namespace Sys2Proof.Machine

/-- `zext_16(nnn)` (R93). -/
def addrOperand (nnn : Addr) : Word := nnn.setWidth 16

/-- `zext_16` of a register value (R8). -/
def zext16 (b : Byte) : Word := b.setWidth 16

/-- The implicit base I as an integer address, not masked (R61, R199). -/
def State.base (s : State) : Nat := s.i.toNat

/-- `V[0]` to `V[x]`, inclusive (R204). -/
def State.regBlock (s : State) (x : RegIx) : List Byte :=
  (List.range (x.toNat + 1)).map fun k => s.reg (BitVec.ofNat 4 k)

/-- Write a list of bytes to `V[k]`, `V[k+1]`, ... in ascending order (R205). -/
def State.setRegBlock (s : State) (k : Nat) : List Byte → State
  | [] => s
  | b :: bs => (s.setReg (BitVec.ofNat 4 k) b).setRegBlock (k + 1) bs

/-- Hundreds, tens and units of a byte, each in a whole byte (R203). -/
def bcdDigits (a : Byte) : List Byte :=
  [BitVec.ofNat 8 (a.toNat / 100), BitVec.ofNat 8 (a.toNat / 10 % 10), BitVec.ofNat 8 (a.toNat % 10)]

/-- The address of a digit's glyph: the whole byte times 5, no masking to a nibble (R202; 93 W6). -/
def fontAddress (a : Byte) : Word := BitVec.ofNat 16 (a.toNat * Config.glyphBytes)

end Sys2Proof.Machine
end

