-- ==== Sys2Proof/Machine/Alu.lean ====
section
/-! DEFINITION. The ALU instructions (spec/41_alu.md): unsigned 8-bit, wrapping modulo 256 (R139). Operands are latched first,
then the writes come in the rule's order, so the later one wins when both name VF (R9). -/

namespace Sys2Proof.Machine

/-- `LD Vx,kk` (R140). -/
def execLdImm (x : RegIx) (kk : Byte) (s : State) : Result := .next (s.setReg x kk)

/-- `ADD Vx,kk` (R141): no flag. -/
def execAddImm (x : RegIx) (kk : Byte) (s : State) : Result := .next (s.setReg x (s.reg x + kk))

/-- `LD Vx,Vy` (R142). -/
def execLdReg (x y : RegIx) (s : State) : Result := .next (s.setReg x (s.reg y))

/-- `OR Vx,Vy` (R143): no flag. -/
def execOrReg (x y : RegIx) (s : State) : Result := .next (s.setReg x (s.reg x ||| s.reg y))

/-- `AND Vx,Vy` (R144): no flag. -/
def execAndReg (x y : RegIx) (s : State) : Result := .next (s.setReg x (s.reg x &&& s.reg y))

/-- `XOR Vx,Vy` (R145): no flag. -/
def execXorReg (x y : RegIx) (s : State) : Result := .next (s.setReg x (s.reg x ^^^ s.reg y))

/-- `ADD Vx,Vy` (R146): the sum, then the carry. -/
def execAddReg (x y : RegIx) (s : State) : Result :=
  let a := s.reg x
  let b := s.reg y
  .next ((s.setReg x (a + b)).setVF (carryFlag a b))

/-- `SUB Vx,Vy` (R147): the flag, then the difference. -/
def execSub (x y : RegIx) (s : State) : Result :=
  let a := s.reg x
  let b := s.reg y
  .next ((s.setVF (notBorrowFlag a b)).setReg x (a - b))

/-- `SHR Vx` (R148): the flag, then the shifted value; `V[y]` is neither read nor written. -/
def execShr (x : RegIx) (s : State) : Result :=
  let a := s.reg x
  .next ((s.setVF (lowBitFlag a)).setReg x (a >>> 1))

/-- `SUBN Vx,Vy` (R149): the flag, then `V[y] <- V[y] - V[x]`; the destination is `V[y]` (93 W2). -/
def execSubn (x y : RegIx) (s : State) : Result :=
  let a := s.reg x
  let b := s.reg y
  .next ((s.setVF (notBorrowFlag b a)).setReg y (b - a))

/-- `SHL Vx` (R150): the flag, then the shifted value. -/
def execShl (x : RegIx) (s : State) : Result :=
  let a := s.reg x
  .next ((s.setVF (highBitFlag a)).setReg x (a <<< 1))

/-- `RND Vx,kk` (R151): the byte on the random input at this Step, masked. -/
def execRnd (x : RegIx) (kk : Byte) (s : State) : Result := .next (s.setReg x (s.pins.rnd &&& kk))

end Sys2Proof.Machine
end

