-- ==== Sys2Proof/Machine/ControlFlow.lean ====
section
/-! DEFINITION. The control transfer instructions (spec/40_control_flow.md). PC is already the address of the instruction plus
2 (R24). -/

namespace Sys2Proof.Machine

/-- `RET` (R120). -/
def execRet (s : State) : Result :=
  .next <|
    match s.pop with
    | .error (c, info) => s.raise c info
    | .ok (t, s') => s'.setPc t

/-- `JP nnn` (R121). -/
def execJp (nnn : Addr) (s : State) : Result := .next (s.setPc (addrOperand nnn))

/-- `CALL nnn` (R122): the pushed value is the advanced PC. -/
def execCall (nnn : Addr) (s : State) : Result :=
  .next <|
    match s.push s.pc with
    | .error (c, info) => s.raise c info
    | .ok s' => s'.setPc (addrOperand nnn)

/-- `SE Vx,kk` (R123). -/
def execSeImm (x : RegIx) (kk : Byte) (s : State) : Result := .next (s.skipIf (s.reg x == kk))

/-- `SNE Vx,kk` (R124). -/
def execSneImm (x : RegIx) (kk : Byte) (s : State) : Result := .next (s.skipIf (s.reg x != kk))

/-- `SE Vx,Vy` (R125). -/
def execSeReg (x y : RegIx) (s : State) : Result := .next (s.skipIf (s.reg x == s.reg y))

/-- `SNE Vx,Vy` (R126). -/
def execSneReg (x y : RegIx) (s : State) : Result := .next (s.skipIf (s.reg x != s.reg y))

/-- `JP V0,nnn` (R127): the sum is not masked to 12 bits. -/
def execJpV0 (nnn : Addr) (s : State) : Result := .next (s.setPc (addrOperand nnn + zext16 (s.reg 0)))

end Sys2Proof.Machine
end

