-- ==== Sys2Proof/Machine/Display.lean ====
section
/-! DEFINITION. The display instructions and the sprite/XOR engine (spec/42_display.md). -/

namespace Sys2Proof.Machine

/-- `DISP[r][c]` (R37). -/
def Display.pixel (d : Display) (r : Fin 32) (c : Fin 64) : Bool := d[r].getLsbD c

/-- `DISP[r][c] <- DISP[r][c] XOR 1`. -/
def Display.toggle (d : Display) (r : Fin 32) (c : Fin 64) : Display := d.set r (d[r] ^^^ BitVec.twoPow 64 c)

/-- Row `(Y + j) mod 32` (R161). -/
def wrapRow (k : Nat) : Fin 32 := Fin.ofNat 32 k

/-- Column `(X + i) mod 64` (R161). -/
def wrapCol (k : Nat) : Fin 64 := Fin.ofNat 64 k

/-- A display under drawing: the surface, and whether a set pixel has been turned unset (`hit` of R163). -/
abbrev Canvas := Display × Bool

/-- The inner statement of R163 at one place: note a hit, then toggle. -/
def Canvas.drawPixel (k : Canvas) (r : Fin 32) (c : Fin 64) : Canvas :=
  (k.1.toggle r c, k.2 || k.1.pixel r c)

/-- One sprite row on display row `r`, its columns from 0 to 7: bit `7 - i` of the byte is column `i` (R162, R163). -/
def Canvas.drawRow (x : Nat) (r : Fin 32) (b : Byte) (k : Canvas) : Canvas :=
  (List.range 8).foldl (fun k i => if b.getLsbD (7 - i) then k.drawPixel r (wrapCol (x + i)) else k) k

/-- The rows of a sprite, top to bottom, the first on row `y mod 32` (R163). -/
def Canvas.drawRows (x : Nat) : Nat → List Byte → Canvas → Canvas
  | _, [], k => k
  | y, b :: bs, k => Canvas.drawRows x (y + 1) bs (k.drawRow x (wrapRow y) b)

/-- The display contract `draw_sprite(x, y, bits) -> collided` (R42, R163). -/
def Display.drawSprite (d : Display) (x y : Nat) (sprite : List Byte) : Display × Bool :=
  Canvas.drawRows x y sprite (d, false)

/-- The display contract `clear()` (R42, R160). -/
def Display.clear : Display := Vector.replicate 32 0

/-- `CLS` (R160). -/
def execCls (s : State) : Result := .next { s with disp := Display.clear }

/-- `DRW Vx,Vy,n` (R163): the range check precedes every effect; VF is the collision flag, always written. -/
def execDrw (x y : RegIx) (n : Nibble) (s : State) : Result :=
  .next <|
    match spanFault s.base n.toNat with
    | some bad => s.raise .outOfRangeAddress (BitVec.ofNat 16 bad)
    | none =>
      let sprite := s.loadBytes s.base n.toNat
      let drawn := s.disp.drawSprite (s.reg x).toNat (s.reg y).toNat sprite
      { s with disp := drawn.1 }.setVF (flag drawn.2)

end Sys2Proof.Machine
end

