-- ==== Sys2Proof/Machine/IndexMemory.lean ====
section
/-! DEFINITION. The index-register, BCD and bulk load/store instructions (spec/44_index_memory.md). The three memory
instructions leave I alone (R199; 93 W5) and check their whole range before any write (R69). -/

namespace Sys2Proof.Machine

/-- `LD I,nnn` (R200). -/
def execLdI (nnn : Addr) (s : State) : Result := .next (s.setI (addrOperand nnn))

/-- `ADD I,Vx` (R201): I, then the flag, which is always written. -/
def execAddI (x : RegIx) (s : State) : Result :=
  let a := s.reg x
  .next ((s.setI (s.i + zext16 a)).setVF (indexOverflowFlag s.i a))

/-- `LD F,Vx` (R202). -/
def execLdF (x : RegIx) (s : State) : Result := .next (s.setI (fontAddress (s.reg x)))

/-- A store through I (R203, R204): the range check, then the bytes. -/
def State.storeAtI (s : State) (bs : List Byte) : State :=
  match spanFault s.base bs.length with
  | some bad => s.raise .outOfRangeAddress (BitVec.ofNat 16 bad)
  | none => s.storeBytes s.base bs

/-- `LD B,Vx` (R203). -/
def execLdB (x : RegIx) (s : State) : Result := .next (s.storeAtI (bcdDigits (s.reg x)))

/-- `LD [I],Vx` (R204). -/
def execStoreRegs (x : RegIx) (s : State) : Result := .next (s.storeAtI (s.regBlock x))

/-- `LD Vx,[I]` (R205). -/
def execLoadRegs (x : RegIx) (s : State) : Result :=
  .next <|
    match spanFault s.base (x.toNat + 1) with
    | some bad => s.raise .outOfRangeAddress (BitVec.ofNat 16 bad)
    | none => s.setRegBlock 0 (s.loadBytes s.base (x.toNat + 1))

end Sys2Proof.Machine
end

