-- ==== Sys2Proof/Machine/KeyTimer.lean ====
section
/-! DEFINITION. The key-input and timer instructions (spec/43_input_timers.md). -/

namespace Sys2Proof.Machine

/-- The common body of the key skips (R179): an index above 15 raises KeyIndexOutOfRange; else skip when the key's level is the
wanted one. -/
def State.keySkip (s : State) (x : RegIx) (held : Bool) : State :=
  let k := s.reg x
  if k.toNat > 15 then s.raise .keyIndexOutOfRange (zext16 k)
  else s.skipIf (s.keyHeld k.toNat == held)

/-- `SKP Vx` (R180). -/
def execSkp (x : RegIx) (s : State) : Result := .next (s.keySkip x true)

/-- `SKNP Vx` (R181). -/
def execSknp (x : RegIx) (s : State) : Result := .next (s.keySkip x false)

/-- `LD Vx,DT` (R182). -/
def execLdVxDT (x : RegIx) (s : State) : Result := .next (s.setReg x s.dt)

/-- `LD DT,Vx` (R183). -/
def execLdDTVx (x : RegIx) (s : State) : Result := .next { s with dt := s.reg x }

/-- `LD ST,Vx` (R184). -/
def execLdSTVx (x : RegIx) (s : State) : Result := .next { s with st := s.reg x }

/-- `LD Vx,K` (R185): enter the wait; the keys are looked at by later Steps (R186). -/
def execLdVxK (x : RegIx) (s : State) : Result := .next { s with mode := .waitKey x }

end Sys2Proof.Machine
end

