-- ==== Sys2Proof/Machine/Cycle.lean ====
section
/-! DEFINITION. The Step, the fetch-decode-execute state machine (spec/60_exceptions.md R220), and placing a word for it. -/

namespace Sys2Proof.Machine

/-- The Running Step after its sample (R220): fetch, advance PC, decode, execute. A failed fetch halts with PC not advanced, an
unknown opcode with PC advanced (R226). -/
def State.runOne (s : State) : Host.Outcome State Fault Refusal :=
  match s.fetch with
  | .error a => .next (s.raiseAt s.pc .outOfRangeAddress (BitVec.ofNat 16 a))
  | .ok op =>
    match decode op with
    | none => .next (s.advancePc.raise .unknownOpcode op)
    | some i => exec i s.advancePc

/-- One Step (R220): nothing in Halted (R227), one poll of the keys in WaitKey (R186), else one instruction. A Step that acts
samples the inputs once, first (R38). -/
def State.cycle (s : State) : Host.Outcome State Fault Refusal :=
  match s.mode with
  | .halted _ => .next s
  | .waitKey t => .next (s.sample.poll t)
  | .running => s.sample.runOne

/-- Where a word is placed to be fetched: at PC where both bytes can be fetched from there, else at the entry address. -/
def State.fetchPlace (s : State) : Word := if s.pc.toNat + 1 < Config.memSize then s.pc else Config.entry

/-- The state with an opcode stored where the next Step fetches. The Step must be able to fetch, so MODE is Running and PC an
address from which two bytes can be read; nothing else changes (log entry 15). -/
def State.placeWord (s : State) (op : Word) : State :=
  { s.storeBytes s.fetchPlace.toNat (bytesOf op) with pc := s.fetchPlace, mode := .running }

end Sys2Proof.Machine
end

