-- ==== Sys2Proof/Machine/Step.lean ====
section
/-! DEFINITION. One step of the machine is one Step of the Interpreter (spec/60_exceptions.md R220). -/

namespace Sys2Proof.Machine

/-- One Step (R220). Timer decrements, Tick, Run, reset and load_program are events of their own, between Steps
(Machine/Scheduler.lean, Machine/HostPort.lean; log entry 8). -/
def step (s : State) : Host.Outcome State Fault Refusal := s.cycle

/-- The state with an opcode-table word stored where the next Step fetches (log entry 15). -/
def State.withFetchWord (s : State) (nbits w : Nat) : State := s.placeWord (BitVec.ofNat 16 (w % 2 ^ nbits))

end Sys2Proof.Machine
end

