-- ==== Sys2Proof/Machine/Scheduler.lean ====
section
/-! DEFINITION. The timer pair and the scheduler (spec/60_exceptions.md R238 to R243). -/

namespace Sys2Proof.Machine

/-- Decrement by one if nonzero (R31, R238). -/
def countDown (b : Byte) : Byte := if b = 0 then 0 else b - 1

/-- The timer-decrement event (R238); nothing in Halted (R227). -/
def State.timerDec (s : State) : State :=
  if s.isHalted then s else { s with dt := countDown s.dt, st := countDown s.st }

/-- `n` Steps, one after the other. -/
def steps : Nat → State → Result
  | 0, s => .next s
  | n + 1, s =>
    match step s with
    | .next t => steps n t
    | .fault r => .fault r
    | .refused r => .refused r

/-- Tick (R240): the Steps first, the decrement last. -/
def tick (s : State) : Result :=
  match steps s.config.stepsPerTick s with
  | .next t => .next t.timerDec
  | .fault r => .fault r
  | .refused r => .refused r

/-- Assign `ACC_STEP` in the accumulators' number format (R35, R241). -/
def State.setAccStep (s : State) (q : Rat) : State := { s with accStep := s.config.accArith.round q }

/-- Assign `ACC_TIMER` in the accumulators' number format (R35, R241). -/
def State.setAccTimer (s : State) (q : Rat) : State := { s with accTimer := s.config.accArith.round q }

/-- The timer period in the accumulators' number format (R241). -/
def State.period (s : State) : Rat := s.config.accArith.round Config.period

/-- The Step loop of Run: `while ACC_STEP > 1: Step(); ACC_STEP <- ACC_STEP - 1` (R241), for at most `fuel` passes. -/
def stepLoop : Nat → State → Result
  | 0, s => if s.accStep > 1 then .fault .schedulerRounding else .next s
  | fuel + 1, s =>
    if s.accStep > 1 then
      match step s with
      | .next t => stepLoop fuel (t.setAccStep (t.accStep - 1))
      | .fault r => .fault r
      | .refused r => .refused r
    else .next s

/-- The timer loop of Run: `while ACC_TIMER > PERIOD: TimerDec(); ACC_TIMER <- ACC_TIMER - PERIOD` (R241). -/
def timerLoop : Nat → State → Result
  | 0, s => if s.accTimer > s.period then .fault .schedulerRounding else .next s
  | fuel + 1, s =>
    if s.accTimer > s.period then timerLoop fuel (s.timerDec.setAccTimer (s.accTimer - s.period)) else .next s

/-- How many passes a loop may take: two more than exact arithmetic needs, so with exact arithmetic it always ends (R241;
log entry 9). -/
def loopFuel (acc unit : Rat) : Nat := (acc / unit).ceil.toNat + 2

/-- The second half of Run: elapsed time into `ACC_TIMER`, then the timer loop. -/
def State.runTimers (s : State) (e : Rat) : Result :=
  let t := s.setAccTimer (s.accTimer + e)
  timerLoop (loopFuel t.accTimer Config.period) t

/-- The first half of Run: Steps due into `ACC_STEP`, then the Step loop. -/
def State.runSteps (s : State) (e : Rat) : Result :=
  let t := s.setAccStep (s.accStep + e * s.config.freq / 1000)
  stepLoop (loopFuel t.accStep 1) t

/-- Run, the fractional Clock, with `e` milliseconds elapsed (R241): all the Steps come before all the decrements. In Halted it
changes nothing (R227, 92 D24); outside its contract it is refused (93 U10). -/
def run (e : Rat) (s : State) : Result :=
  if e < 0 ∨ s.config.freq ≤ 0 then .refused .runOutsideContract
  else if s.isHalted then .next s
  else
    match s.runSteps e with
    | .next t => t.runTimers e
    | .fault r => .fault r
    | .refused r => .refused r

end Sys2Proof.Machine
end

