-- ==== Sys2Proof/Machine/HostPort.lean ====
section
/-! DEFINITION. The interface of the core (spec/10_state.md R40 to R42, spec/70_reset_and_hazards.md R270 to R285): reset,
load_program, the events a host may issue between Steps, the end of a run, and the outputs. -/

namespace Sys2Proof.Machine

/-- `reset()` (R270): every piece of state to its reset value, in any mode; the configuration and the inputs stay (R272). -/
def State.hostReset (s : State) : State :=
  { State.powerOn s.config with pins := s.pins, pending := s.pending, samples := s.samples }

/-- `load_program(bytes)` (R68): bytes from 0x200 upward and nothing else; one too long raises OutOfRangeAddress(0x1000) with
the current PC as `halt_pc` (R224) and writes nothing (R69); in Halted nothing changes (92 D24). -/
def State.loadProgram (s : State) (bytes : List Byte) : State :=
  if s.isHalted then s
  else
    match spanFault Config.entry.toNat bytes.length with
    | some bad => s.raiseAt s.pc .outOfRangeAddress (BitVec.ofNat 16 bad)
    | none => s.storeBytes Config.entry.toNat bytes

/-- What the host may do between two Steps (R40, R285). -/
inductive HostEvent where
  /-- Construct the machine with a configuration: the state a reset leaves (R43, R272, R274). -/
  | powerOn (c : Config)
  /-- Write the scheduler configuration registers (R34). -/
  | setRates (freq : Rat) (stepsPerTick : Nat)
  /-- `reset()` (R270). -/
  | reset
  /-- `load_program(bytes)` (R68). -/
  | loadProgram (bytes : List Byte)
  /-- `step()` (R220). -/
  | step
  /-- `tick()` (R240). -/
  | tick
  /-- `run(elapsed_ms)` (R241). -/
  | run (e : Rat)
  /-- Announce the key levels and random bytes of the coming Steps (R38, R151; log entry 3). -/
  | present (ps : List Pins)
  deriving DecidableEq, Repr

/-- One host event. -/
def HostEvent.apply (e : HostEvent) (s : State) : Result :=
  match e with
  | .powerOn c => .next { State.powerOn c with pins := s.pins, pending := s.pending, samples := s.samples }
  | .setRates f n => .next { s with config := { s.config with freq := f, stepsPerTick := n } }
  | .reset => .next s.hostReset
  | .loadProgram bytes => .next (s.loadProgram bytes)
  | .step => Sys2Proof.Machine.step s
  | .tick => Sys2Proof.Machine.tick s
  | .run e => Sys2Proof.Machine.run e s
  | .present ps => .next { s with pending := ps }

/-- A list of host events, first to last. -/
def applyAll : List HostEvent → State → Result
  | [], s => .next s
  | e :: es, s =>
    match e.apply s with
    | .next t => applyAll es t
    | .fault r => .fault r
    | .refused r => .refused r

/-- The end of a run (R284, 92 D26; R102): the machine is Halted, or Running with PC at a jump to PC. The machine itself has no
end; this is when a host may stop driving it. -/
def State.finished (s : State) : Bool :=
  match s.mode with
  | .halted _ => true
  | .waitKey _ => false
  | .running =>
    match s.fetch with
    | .error _ => false
    | .ok op =>
      match decode op with
      | some (.jp nnn) => addrOperand nnn == s.pc
      | _ => false

/-- The cause code (R224). -/
def Cause.code : Cause → Nat
  | .unknownOpcode => 1
  | .stackUnderflow => 2
  | .outOfRangeAddress => 3
  | .keyIndexOutOfRange => 4
  | .stackOverflow => 5

/-- The output ports (R41; 92 D1). -/
structure Outputs where
  disp : Display
  halted : Bool
  haltCause : Nat
  haltInfo : Word
  haltPc : Word
  waiting : Bool
  dt : Byte
  st : Byte
  deriving DecidableEq, Repr

/-- What the outputs show (R41). Outside Halted the record reads cleared: cause 0 (92 D13), info and `halt_pc` 0 (DEDUCED,
safe: log entry 17). -/
def State.outputs (s : State) : Outputs :=
  match s.mode with
  | .halted r => ⟨s.disp, true, r.cause.code, r.info, r.haltPc, false, s.dt, s.st⟩
  | .waitKey _ => ⟨s.disp, false, 0, 0, 0, true, s.dt, s.st⟩
  | .running => ⟨s.disp, false, 0, 0, 0, false, s.dt, s.st⟩

end Sys2Proof.Machine
end

