-- ==== Sys2Proof/Safety.lean ====
section
/-! DEFINITION. What counts as a safe state, what an instruction may write (spec/10_state.md R22, R25; spec/20_memory.md R66),
and the frame in which statements say that everything else is unchanged. -/

namespace Sys2Proof.Machine

/-- What an operation may write; a field left out stays as it was. -/
structure Writes where
  /-- general registers -/
  regs : List RegIx := []
  pc : Bool := false
  i : Bool := false
  dt : Bool := false
  st : Bool := false
  stack : Bool := false
  mode : Bool := false
  disp : Bool := false
  /-- addresses of memory -/
  mem : List Nat := []
  deriving DecidableEq, Repr

/-- Everything outside `w` is unchanged, memory byte by byte and the display pixel by pixel. The accumulators, the
configuration and the inputs are outside every `w`. -/
structure Frame (w : Writes) (s t : State) : Prop where
  regs : ∀ r, r ∉ w.regs → t.reg r = s.reg r
  pc : w.pc = false → t.pc = s.pc
  i : w.i = false → t.i = s.i
  dt : w.dt = false → t.dt = s.dt
  st : w.st = false → t.st = s.st
  stack : w.stack = false → t.stack = s.stack
  mode : w.mode = false → t.mode = s.mode
  disp : w.disp = false → ∀ r c, t.disp.pixel r c = s.disp.pixel r c
  mem : ∀ a, a ∉ w.mem → t.byteAt a = s.byteAt a
  accStep : t.accStep = s.accStep
  accTimer : t.accTimer = s.accTimer
  config : t.config = s.config
  pins : t.pins = s.pins
  pending : t.pending = s.pending
  samples : t.samples = s.samples

/-- The addresses `base`, ..., `base + len - 1`. -/
def span (base len : Nat) : List Nat := (List.range len).map (base + ·)

/-- The registers `V[0]`, ..., `V[x]`. -/
def regsUpTo (x : RegIx) : List RegIx := (List.range (x.toNat + 1)).map (BitVec.ofNat 4)

/-- What an instruction may write when it does not halt, by the tables R22 and R66 and the instruction rules. The addresses are
those its meaning stores to. -/
def writesOf (s : State) : Instr → Writes
  | .cls _ => { disp := true }
  | .ret _ => { pc := true, stack := true }
  | .jp _ => { pc := true }
  | .call _ => { pc := true, stack := true }
  | .seImm _ _ => { pc := true }
  | .sneImm _ _ => { pc := true }
  | .seReg _ _ _ => { pc := true }
  | .ldImm x _ => { regs := [x] }
  | .addImm x _ => { regs := [x] }
  | .ldReg x _ => { regs := [x] }
  | .orReg x _ => { regs := [x] }
  | .andReg x _ => { regs := [x] }
  | .xorReg x _ => { regs := [x] }
  | .addReg x _ => { regs := [x, 15] }
  | .sub x _ => { regs := [x, 15] }
  | .shr x _ => { regs := [x, 15] }
  | .subn _ y => { regs := [y, 15] }
  | .shl x _ => { regs := [x, 15] }
  | .sneReg _ _ _ => { pc := true }
  | .ldI _ => { i := true }
  | .jpV0 _ => { pc := true }
  | .rnd x _ => { regs := [x] }
  | .drw _ _ _ => { regs := [15], disp := true }
  | .skp _ => { pc := true }
  | .sknp _ => { pc := true }
  | .ldVxDT x => { regs := [x] }
  | .ldVxK _ => { mode := true }
  | .ldDTVx _ => { dt := true }
  | .ldSTVx _ => { st := true }
  | .addI _ => { i := true, regs := [15] }
  | .ldF _ => { i := true }
  | .ldB _ => { mem := span s.base 3 }
  | .storeRegs x => { mem := span s.base (x.toNat + 1) }
  | .loadRegs x => { regs := regsUpTo x }

/-- The general registers an instruction reads, by the table R22. -/
def readsOf : Instr → List RegIx
  | .cls _ => []
  | .ret _ => []
  | .jp _ => []
  | .call _ => []
  | .seImm x _ => [x]
  | .sneImm x _ => [x]
  | .seReg x y _ => [x, y]
  | .ldImm _ _ => []
  | .addImm x _ => [x]
  | .ldReg _ y => [y]
  | .orReg x y => [x, y]
  | .andReg x y => [x, y]
  | .xorReg x y => [x, y]
  | .addReg x y => [x, y]
  | .sub x y => [x, y]
  | .shr x _ => [x]
  | .subn x y => [x, y]
  | .shl x _ => [x]
  | .sneReg x y _ => [x, y]
  | .ldI _ => []
  | .jpV0 _ => [0]
  | .rnd _ _ => []
  | .drw x y _ => [x, y]
  | .skp x => [x]
  | .sknp x => [x]
  | .ldVxDT _ => []
  | .ldVxK _ => []
  | .ldDTVx x => [x]
  | .ldSTVx x => [x]
  | .addI x => [x]
  | .ldF x => [x]
  | .ldB x => [x]
  | .storeRegs x => regsUpTo x
  | .loadRegs _ => []

/-- PC after a Step that runs an instruction fetched at `a` and does not halt, by the table R25. The registers, the stack and
the sampled key levels `keys` are those of the Step. -/
def pcAfter (s : State) (keys : BitVec 16) (a : Word) : Instr → Word
  | .cls _ => a + 2
  | .ret _ => s.stack.getLastD 0
  | .jp nnn => BitVec.ofNat 16 nnn.toNat
  | .call nnn => BitVec.ofNat 16 nnn.toNat
  | .seImm x kk => if s.reg x = kk then a + 4 else a + 2
  | .sneImm x kk => if s.reg x ≠ kk then a + 4 else a + 2
  | .seReg x y _ => if s.reg x = s.reg y then a + 4 else a + 2
  | .ldImm _ _ => a + 2
  | .addImm _ _ => a + 2
  | .ldReg _ _ => a + 2
  | .orReg _ _ => a + 2
  | .andReg _ _ => a + 2
  | .xorReg _ _ => a + 2
  | .addReg _ _ => a + 2
  | .sub _ _ => a + 2
  | .shr _ _ => a + 2
  | .subn _ _ => a + 2
  | .shl _ _ => a + 2
  | .sneReg x y _ => if s.reg x ≠ s.reg y then a + 4 else a + 2
  | .ldI _ => a + 2
  | .jpV0 nnn => BitVec.ofNat 16 (nnn.toNat + (s.reg 0).toNat)
  | .rnd _ _ => a + 2
  | .drw _ _ _ => a + 2
  | .skp x => if keys.getLsbD (s.reg x).toNat then a + 4 else a + 2
  | .sknp x => if keys.getLsbD (s.reg x).toNat then a + 2 else a + 4
  | .ldVxDT _ => a + 2
  | .ldVxK _ => a + 2
  | .ldDTVx _ => a + 2
  | .ldSTVx _ => a + 2
  | .addI _ => a + 2
  | .ldF _ => a + 2
  | .ldB _ => a + 2
  | .storeRegs _ => a + 2
  | .loadRegs _ => a + 2

/-- The invariant of the machine: memory in its canonical form, PC no greater than R26 says any rule can produce, every return
address one that a CALL can push (R120), and the stack within its depth (R29). -/
structure Inv (s : State) : Prop where
  mem : Memory.wf s.config.font s.mem
  pc : s.pc.toNat ≤ 0x10FE
  stack : ∀ r ∈ s.stack, r.toNat ≤ 0x1000
  depth : ∀ d, s.config.stackDepth = some d → s.stack.length ≤ d

/-- A safe state has met no fatal error (spec/60_exceptions.md R224). -/
def Safe (s : State) : Prop := s.isHalted = false

end Sys2Proof.Machine
end

