-- ==== Sys2Proof/Certificates/Slice0/Obligations.lean ====
section
/-! DEFINITION. The statements for the provers. Each docstring names the rule of spec/ it formalises. `exec i s` runs `i` in the
state the fetch left, so PC is there the instruction's address plus 2 (R24). `Frame w s t` says that everything outside `w` is
unchanged. -/

open Sys2Proof Sys2Proof.Machine

/-! ## Encoding -/

/-- One word of every row of R95, from the examples of the instruction rules and from spec/95_test_vectors.md (T-C, T-A, T-G,
T-K, T-M, T-X), decodes to its instruction. The opcode numbers are the decision 92 D2. -/
def Obligations.SpecExampleWordsDecode : Prop :=
  decode 0x00E0 = some (.cls 0) ∧ decode 0x0AE0 = some (.cls 0xA) ∧ decode 0x00EE = some (.ret 0) ∧
  decode 0x1234 = some (.jp 0x234) ∧ decode 0x2210 = some (.call 0x210) ∧ decode 0x332A = some (.seImm 3 0x2A) ∧
  decode 0x432A = some (.sneImm 3 0x2A) ∧ decode 0x5120 = some (.seReg 1 2 0) ∧ decode 0x512F = some (.seReg 1 2 0xF) ∧
  decode 0x6A2F = some (.ldImm 0xA 0x2F) ∧ decode 0x7002 = some (.addImm 0 2) ∧ decode 0x8120 = some (.ldReg 1 2) ∧
  decode 0x8121 = some (.orReg 1 2) ∧ decode 0x8122 = some (.andReg 1 2) ∧ decode 0x8123 = some (.xorReg 1 2) ∧
  decode 0x8124 = some (.addReg 1 2) ∧ decode 0x8125 = some (.sub 1 2) ∧ decode 0x84A6 = some (.shr 4 0xA) ∧
  decode 0x8127 = some (.subn 1 2) ∧ decode 0x840E = some (.shl 4 0) ∧ decode 0x9120 = some (.sneReg 1 2 0) ∧
  decode 0xA300 = some (.ldI 0x300) ∧ decode 0xB300 = some (.jpV0 0x300) ∧ decode 0xC30F = some (.rnd 3 0x0F) ∧
  decode 0xD125 = some (.drw 1 2 5) ∧ decode 0xE29E = some (.skp 2) ∧ decode 0xE2A1 = some (.sknp 2) ∧
  decode 0xF507 = some (.ldVxDT 5) ∧ decode 0xF30A = some (.ldVxK 3) ∧ decode 0xF515 = some (.ldDTVx 5) ∧
  decode 0xF518 = some (.ldSTVx 5) ∧ decode 0xF11E = some (.addI 1) ∧ decode 0xF029 = some (.ldF 0) ∧
  decode 0xF033 = some (.ldB 0) ∧ decode 0xF255 = some (.storeRegs 2) ∧ decode 0xF165 = some (.loadRegs 1) ∧
  decode 0x0000 = none ∧ decode 0x0123 = none ∧ decode 0x800F = none ∧ decode 0xE09F = none ∧ decode 0xF1FF = none

/-- Every instruction, with every operand and every value of its ignored bits, is what its own word decodes to (R91, R92, R95).
The opcode numbers are the decision 92 D2; that an instruction keeps its ignored bits is the model's choice (log entry 13). -/
def Obligations.DecodeUndoesEncode : Prop := ∀ i : Instr, decode (encode i) = some i

/-- A word that decodes is the word of the term it decodes to, so decoding drops no bit (R91, R95). This holds of every known word
only because a term of `Instr` keeps the bits its meaning ignores, which is the model's choice (log entry 13): words that differ in
those bits alone, such as 0x00E0 and 0x0AE0, are different terms and one instruction of R99 (`IgnoredBitsDoNothing`). The opcode
numbers are the decision 92 D2. -/
def Obligations.EncodeUndoesDecode : Prop := ∀ (op : Word) (i : Instr), decode op = some i → encode i = op

/-- The unknown opcodes are exactly the four families of R97, 0x0?00 among them (R98, 92 D6). -/
def Obligations.UnknownOpcodesAreTheListedOnes : Prop :=
  ∀ op : Word, decode op = none ↔
    (op.toNat / 4096 = 0 ∧ op.toNat % 256 ≠ 0xE0 ∧ op.toNat % 256 ≠ 0xEE) ∨
    (op.toNat / 4096 = 8 ∧ op.toNat % 16 ∈ [0x8, 0x9, 0xA, 0xB, 0xC, 0xD, 0xF]) ∨
    (op.toNat / 4096 = 0xE ∧ op.toNat % 256 ≠ 0x9E ∧ op.toNat % 256 ≠ 0xA1) ∨
    (op.toNat / 4096 = 0xF ∧ op.toNat % 256 ∉ [0x07, 0x0A, 0x15, 0x18, 0x1E, 0x29, 0x33, 0x55, 0x65])

/-- The opcode map of R95: an opcode decodes to an instruction exactly when a row selects it (`op AND mask = match`), the row is
the instruction's own, and so no two rows select one opcode. The numbers are the decision 92 D2. -/
def Obligations.OpcodeMapSelectsOneRow : Prop :=
  opcodeTable.length = 34 ∧
  ∀ op : Word,
    (∀ i, decode op = some i → rowOf i ∈ opcodeTable ∧ (rowOf i).selects op = true) ∧
    (∀ r ∈ opcodeTable, r.selects op = true → ∃ i, decode op = some i ∧ rowOf i = r)

/-- R99: every value of the ignored bits selects the same instruction and behaves the same, and an assembler emits 0. -/
def Obligations.IgnoredBitsDoNothing : Prop :=
  ∀ (x y : RegIx) (a b : Nibble) (s : State),
    (decode (packXKk 0x0 a 0xE0) = some (.cls a) ∧ exec (.cls a) s = exec (.cls b) s) ∧
    (decode (packXKk 0x0 a 0xEE) = some (.ret a) ∧ exec (.ret a) s = exec (.ret b) s) ∧
    (decode (packXYN 0x5 x y a) = some (.seReg x y a) ∧ exec (.seReg x y a) s = exec (.seReg x y b) s) ∧
    (decode (packXYN 0x9 x y a) = some (.sneReg x y a) ∧ exec (.sneReg x y a) s = exec (.sneReg x y b) s) ∧
    (decode (packXYN 0x8 x a 0x6) = some (.shr x a) ∧ exec (.shr x a) s = exec (.shr x b) s) ∧
    (decode (packXYN 0x8 x a 0xE) = some (.shl x a) ∧ exec (.shl x a) s = exec (.shl x b) s) ∧
    (∀ i : Instr, WellFormed i = true ↔
      encode i &&& (match i with
        | .cls _ => 0x0F00 | .ret _ => 0x0F00 | .seReg _ _ _ => 0x000F | .sneReg _ _ _ => 0x000F
        | .shr _ _ => 0x00F0 | .shl _ _ => 0x00F0 | _ => 0x0000) = 0)

/-! ## The Step -/

/-- `MemRead` (R62): the byte at an address up to 4095, else the error that the caller raises as OutOfRangeAddress. -/
def Obligations.MemReadChecksItsAddress : Prop :=
  ∀ (s : State) (a : Nat),
    (a ≤ 4095 → s.memRead a = .ok (s.byteAt a)) ∧ (4095 < a → s.memRead a = .error a)

/-- R220, R24, R64: when the two bytes at PC, the first the most significant, decode to an instruction, a Running Step runs it
with PC advanced by 2. The Step also samples the inputs: the oldest announced ones, else free values (the model's, log entry 3;
the statement holds for every value of them). -/
def Obligations.StepRunsDecodedInstruction : Prop :=
  ∀ (s : State) (i : Instr), s.mode = .running → s.pc.toNat ≤ 0xFFE →
    decode (BitVec.ofNat 16 ((s.byteAt s.pc.toNat).toNat * 256 + (s.byteAt (s.pc.toNat + 1)).toNat)) = some i →
    step s = exec i { s with pc := s.pc + 2, pins := s.nextPins, pending := s.pending.tail, samples := s.samples + 1 }

/-- An opcode that matches no row halts the machine with UnknownOpcode, the opcode in the record and PC advanced past it (R221). The
record also holds the address it was fetched from (R224, the decision 92 D13), nothing else of the core changes (R226, the decision
92 D12), and a further Step changes nothing (R227). That the Step has sampled the inputs is the model's choice (log entry 3). -/
def Obligations.UnknownOpcodeHalts : Prop :=
  ∀ (s : State) (op : Word), s.mode = .running → s.fetch = .ok op → decode op = none →
    ∃ t, step s = .next t ∧ step t = .next t ∧ t = { s with
      pc := s.pc + 2, mode := .halted ⟨.unknownOpcode, op, s.pc⟩
      pins := s.nextPins, pending := s.pending.tail, samples := s.samples + 1 }

/-- A fetch of a byte at 4096 or above halts with OutOfRangeAddress, the first such address in the record, and PC not advanced
(R64, R223, R226; the state a halt leaves is the decision 92 D12). That a Step whose fetch fails has sampled the inputs, and so
changes pins, pending and samples, is the model's choice (log entries 3 and 23). -/
def Obligations.FetchOutOfRangeHalts : Prop :=
  ∀ s : State, s.mode = .running → 0xFFE < s.pc.toNat →
    step s = .next { s with
      mode := .halted ⟨.outOfRangeAddress, if s.pc = 0xFFF then 0x1000 else s.pc, s.pc⟩
      pins := s.nextPins, pending := s.pending.tail, samples := s.samples + 1 }

/-- R186: a Step in WaitKey(t) fetches nothing; the lowest held key of its sample goes to `V[t]` and ends the wait, and without
a held key nothing changes (the polled wait is the decision 92 D18). How the sample reaches the Step, in pins, pending and samples,
is the model's choice (log entry 3). -/
def Obligations.WaitKeyStepPollsTheKeys : Prop :=
  ∀ (s : State) (t : RegIx), s.mode = .waitKey t →
    ((∀ k < 16, s.nextPins.keys.getLsbD k = false) → step s = .next s.sample) ∧
    (∀ k < 16, s.nextPins.keys.getLsbD k = true → (∀ j < k, s.nextPins.keys.getLsbD j = false) →
      ∃ u, step s = .next u ∧ (u.reg t).toNat = k ∧ u.mode = .running ∧ Frame { regs := [t], mode := true } s.sample u)

/-- Every Step answers a next state: decode is total and every fatal error is a state of the machine (R94, R220, R224). -/
def Obligations.EveryStepAnswersNext : Prop := ∀ s : State, ∃ t, step s = .next t

/-- A word placed with `withFetchWord` is what the very next Step runs, and nothing else has changed (the model's, log entry 15;
R220). That the Step has sampled the inputs is the model's choice (log entry 3). -/
def Obligations.PlacedWordRunsNext : Prop :=
  ∀ (s : State) (w : Nat) (i : Instr), decodeTableWord 16 w = some i →
    ∃ u, step (s.withFetchWord 16 w) = exec i u ∧ u.mode = .running ∧
      u.pc.toNat = (if s.pc.toNat ≤ 0xFFE then s.pc.toNat else 0x200) + 2 ∧
      Frame { pc := true, mode := true, mem := [u.pc.toNat - 2, u.pc.toNat - 1] } s.sample u

/-- R227: in Halted a Step, a Tick, a Run, a timer decrement and a load change nothing, and a reset leaves it (that timers and
loads stop too is the decision 92 D24). That such a Step samples no inputs either is the model's deduction (log entry 23). -/
def Obligations.HaltedIsAbsorbing : Prop :=
  ∀ (s : State) (r : HaltRecord), s.mode = .halted r →
    step s = .next s ∧ tick s = .next s ∧ s.timerDec = s ∧ (∀ bytes, s.loadProgram bytes = s) ∧
    (∀ e : Rat, 0 ≤ e → 0 < s.config.freq → run e s = .next s) ∧ s.hostReset.mode = .running

/-! ## Reset -/

/-- A reset in any state leaves PC at 0x200 (R44), a second one changes nothing and the font is back (R271). That bytes stored
anywhere, outside the font too, make no difference after it is the wiping of memory, the decision 92 D14 (R76, R270; log entry
14). -/
def Obligations.ResetIsIdempotentAndRestoresFont : Prop :=
  ∀ s : State, s.hostReset.pc = 0x200 ∧ s.hostReset.hostReset = s.hostReset ∧
    (∀ a (h : a < 80), s.hostReset.byteAt a = s.config.font[a]) ∧
    (∀ (bytes : List Byte) (a : Nat), (s.storeBytes a bytes).hostReset = s.hostReset)

/-- The other reset values of R45, and what reset leaves alone (R272). That memory outside the font is zero, the display unset
and the accumulators zero is the decision 92 D14; that the latest sample and the announced inputs are kept is the model's choice
(log entry 4). -/
def Obligations.ResetLeavesTheListedValues : Prop :=
  ∀ s : State,
    (∀ x, s.hostReset.reg x = 0) ∧ s.hostReset.i = 0 ∧ s.hostReset.dt = 0 ∧ s.hostReset.st = 0 ∧ s.hostReset.stack = [] ∧
    s.hostReset.mode = .running ∧ (∀ a, 80 ≤ a → a < 4096 → s.hostReset.byteAt a = 0) ∧
    (∀ r c, s.hostReset.disp.pixel r c = false) ∧ s.hostReset.accStep = 0 ∧ s.hostReset.accTimer = 0 ∧
    s.hostReset.config = s.config ∧ s.hostReset.pins = s.pins ∧ s.hostReset.pending = s.pending

/-! ## Control transfer -/

/-- `JP nnn` (R121) and `JP V0,nnn` (R127): PC is the target, not masked to 12 bits, and nothing else changes. -/
def Obligations.JumpsLandOnTheirTarget : Prop :=
  ∀ (nnn : Addr) (s : State),
    (∃ t, exec (.jp nnn) s = .next t ∧ t.pc.toNat = nnn.toNat ∧ Frame { pc := true } s t) ∧
    (∃ t, exec (.jpV0 nnn) s = .next t ∧ t.pc.toNat = nnn.toNat + (s.reg 0).toNat ∧ Frame { pc := true } s t)

/-- The skips (R123 to R126): PC moves past one more instruction exactly when the condition holds, and nothing else changes. -/
def Obligations.SkipsPassOneInstruction : Prop :=
  ∀ (x y : RegIx) (kk : Byte) (ign : Nibble) (s : State),
    (∃ t, exec (.seImm x kk) s = .next t ∧ t.pc = (if s.reg x = kk then s.pc + 2 else s.pc) ∧ Frame { pc := true } s t) ∧
    (∃ t, exec (.sneImm x kk) s = .next t ∧ t.pc = (if s.reg x = kk then s.pc else s.pc + 2) ∧ Frame { pc := true } s t) ∧
    (∃ t, exec (.seReg x y ign) s = .next t ∧ t.pc = (if s.reg x = s.reg y then s.pc + 2 else s.pc) ∧
      Frame { pc := true } s t) ∧
    (∃ t, exec (.sneReg x y ign) s = .next t ∧ t.pc = (if s.reg x = s.reg y then s.pc else s.pc + 2) ∧
      Frame { pc := true } s t)

/-- `CALL nnn` (R122): with room on the stack it pushes the advanced PC and jumps; on a full stack of a finite `STACK_DEPTH` it
halts with StackOverflow and pushes nothing (the finite depth is the decision 92 D15). -/
def Obligations.CallPushesTheReturnAddress : Prop :=
  ∀ (nnn : Addr) (s : State),
    (s.config.stackDepth ≠ some s.stack.length →
      ∃ t, exec (.call nnn) s = .next t ∧ t.stack = s.stack ++ [s.pc] ∧ t.pc.toNat = nnn.toNat ∧
        Frame { pc := true, stack := true } s t) ∧
    (s.config.stackDepth = some s.stack.length →
      exec (.call nnn) s = .next { s with mode := .halted ⟨.stackOverflow, s.pc, s.pc - 2⟩ })

/-- `RET` (R120): the top of the stack goes to PC and off the stack; an empty stack halts with StackUnderflow (R222). -/
def Obligations.ReturnPopsTheStack : Prop :=
  ∀ (ign : Nibble) (s : State),
    (∀ ws w, s.stack = ws ++ [w] →
      ∃ t, exec (.ret ign) s = .next t ∧ t.pc = w ∧ t.stack = ws ∧ Frame { pc := true, stack := true } s t) ∧
    (s.stack = [] → exec (.ret ign) s = .next { s with mode := .halted ⟨.stackUnderflow, 0, s.pc - 2⟩ })

/-- A `RET` after a `CALL`, whatever ran between them, as long as the stack is back to what the CALL left: PC is the address after
the CALL and the stack is the CALL's own before it (R120, R122). -/
def Obligations.ReturnUndoesCall : Prop :=
  ∀ (nnn : Addr) (ign : Nibble) (s t u : State), s.config.stackDepth ≠ some s.stack.length →
    exec (.call nnn) s = .next t → u.stack = t.stack →
    ∃ w, exec (.ret ign) u = .next w ∧ w.pc = s.pc ∧ w.stack = s.stack

/-! ## ALU -/

/-- The register loads and the masked random byte (R140, R142, R151): one register is written, and nothing else. The random byte
is the input sampled at the Step (92 D19), whatever it is. -/
def Obligations.LoadsWriteOneRegister : Prop :=
  ∀ (x y : RegIx) (kk : Byte) (s : State),
    (∃ t, exec (.ldImm x kk) s = .next t ∧ t.reg x = kk ∧ Frame { regs := [x] } s t) ∧
    (∃ t, exec (.ldReg x y) s = .next t ∧ t.reg x = s.reg y ∧ Frame { regs := [x] } s t) ∧
    (∃ t, exec (.rnd x kk) s = .next t ∧ (∀ k, (t.reg x).getLsbD k = (s.pins.rnd.getLsbD k && kk.getLsbD k)) ∧
      Frame { regs := [x] } s t)

/-- The laws of R139 for every ALU operation: results modulo 256, the carry, the strict comparison of the two subtractions, the
shifted-out bit, no flag from add-immediate and the logic operations. Where the result's own register is VF, the flag and the
result meet in one register: `FlagRegisterAsDestination`. -/
def Obligations.AluLaws : Prop :=
  ∀ (x y : RegIx) (kk : Byte) (ign : Nibble) (s : State) (a b : Nat), a = (s.reg x).toNat → b = (s.reg y).toNat →
    (∃ t, exec (.addImm x kk) s = .next t ∧ (t.reg x).toNat = (a + kk.toNat) % 256 ∧ Frame { regs := [x] } s t) ∧
    (∃ t, exec (.orReg x y) s = .next t ∧ (∀ k, (t.reg x).getLsbD k = ((s.reg x).getLsbD k || (s.reg y).getLsbD k)) ∧
      Frame { regs := [x] } s t) ∧
    (∃ t, exec (.andReg x y) s = .next t ∧ (∀ k, (t.reg x).getLsbD k = ((s.reg x).getLsbD k && (s.reg y).getLsbD k)) ∧
      Frame { regs := [x] } s t) ∧
    (∃ t, exec (.xorReg x y) s = .next t ∧ (∀ k, (t.reg x).getLsbD k = ((s.reg x).getLsbD k ^^ (s.reg y).getLsbD k)) ∧
      Frame { regs := [x] } s t) ∧
    (x ≠ 15 →
      (∃ t, exec (.addReg x y) s = .next t ∧ (t.reg x).toNat = (a + b) % 256 ∧
        (t.reg 15).toNat = (if a + b > 255 then 1 else 0) ∧ Frame { regs := [x, 15] } s t) ∧
      (∃ t, exec (.sub x y) s = .next t ∧ (t.reg x).toNat = (if a ≥ b then a - b else a + 256 - b) ∧
        (t.reg 15).toNat = (if a > b then 1 else 0) ∧ Frame { regs := [x, 15] } s t) ∧
      (∃ t, exec (.shr x ign) s = .next t ∧ (t.reg x).toNat = a / 2 ∧ (t.reg 15).toNat = a % 2 ∧
        Frame { regs := [x, 15] } s t) ∧
      (∃ t, exec (.shl x ign) s = .next t ∧ (t.reg x).toNat = (2 * a) % 256 ∧ (t.reg 15).toNat = a / 128 ∧
        Frame { regs := [x, 15] } s t)) ∧
    (y ≠ 15 →
      ∃ t, exec (.subn x y) s = .next t ∧ (t.reg y).toNat = (if b ≥ a then b - a else b + 256 - a) ∧
        (t.reg 15).toNat = (if b > a then 1 else 0) ∧ Frame { regs := [y, 15] } s t)

/-- The forms whose destination is VF: `ADD` leaves the carry there, the subtractions and shifts leave the result (R146 to R150;
the order of the two writes is the decision 92 D7). -/
def Obligations.FlagRegisterAsDestination : Prop :=
  ∀ (r : RegIx) (ign : Nibble) (s : State) (f b : Nat), f = (s.reg 15).toNat → b = (s.reg r).toNat →
    (∃ t, exec (.addReg 15 r) s = .next t ∧ (t.reg 15).toNat = (if f + b > 255 then 1 else 0) ∧
      Frame { regs := [15] } s t) ∧
    (∃ t, exec (.sub 15 r) s = .next t ∧ (t.reg 15).toNat = (f + 256 - b) % 256 ∧ Frame { regs := [15] } s t) ∧
    (∃ t, exec (.subn r 15) s = .next t ∧ (t.reg 15).toNat = (f + 256 - b) % 256 ∧ Frame { regs := [15] } s t) ∧
    (∃ t, exec (.shr 15 ign) s = .next t ∧ (t.reg 15).toNat = f / 2 ∧ Frame { regs := [15] } s t) ∧
    (∃ t, exec (.shl 15 ign) s = .next t ∧ (t.reg 15).toNat = (2 * f) % 256 ∧ Frame { regs := [15] } s t)

/-! ## Display -/

/-- `CLS` (R160): every pixel is unset, and nothing else changes. -/
def Obligations.ClearUnsetsEveryPixel : Prop :=
  ∀ (ign : Nibble) (s : State),
    ∃ t, exec (.cls ign) s = .next t ∧ (∀ r c, t.disp.pixel r c = false) ∧ Frame { disp := true } s t

/-- `DRW Vx,Vy,n` (R161 to R163): exactly the pixels under a 1 bit of the sprite are toggled, every sprite pixel wrapping at the
edges (the decision 92 D8); VF is 1 iff one of them was set, and is always written; I and memory are unchanged. -/
def Obligations.DrawTogglesTheCoveredPixels : Prop :=
  ∀ (x y : RegIx) (n : Nibble) (s : State), (n = 0 ∨ s.i.toNat + n.toNat ≤ 4096) →
    ∃ t, exec (.drw x y n) s = .next t ∧
      (∀ r c, t.disp.pixel r c ≠ s.disp.pixel r c ↔
        ∃ j < n.toNat, ∃ i < 8, (s.byteAt (s.i.toNat + j)).getLsbD (7 - i) = true ∧
          r.val = ((s.reg y).toNat + j) % 32 ∧ c.val = ((s.reg x).toNat + i) % 64) ∧
      (t.reg 15 = 0 ∨ t.reg 15 = 1) ∧
      (t.reg 15 = 1 ↔ ∃ r c, s.disp.pixel r c = true ∧ t.disp.pixel r c = false) ∧
      Frame { regs := [15], disp := true } s t

/-- R164: drawing a sprite and then the identical sprite at the same position restores the display, and the flag is 1 only when
drawing over set pixels. The second draw reports a collision exactly when a pixel under a 1 bit was unset before the first draw:
this is what R163 gives, and R164's closing inference says otherwise (`SecondDrawCollidesWheneverTheSpriteHasABit`). -/
def Obligations.DrawingTwiceRestoresTheDisplay : Prop :=
  ∀ (x y : RegIx) (n : Nibble) (s t : State), (n = 0 ∨ s.i.toNat + n.toNat ≤ 4096) →
    exec (.drw x y n) s = .next t → t.reg x = s.reg x → t.reg y = s.reg y →
    (t.reg 15 = 1 → ∃ r c, s.disp.pixel r c = true) ∧
    ∃ u, exec (.drw x y n) t = .next u ∧ u.disp = s.disp ∧
      (u.reg 15 = 1 ↔ ∃ r c, s.disp.pixel r c = false ∧ t.disp.pixel r c = true)

/-- R164's closing inference where R163 gives it: when the first draw turned no set pixel unset, the identical draw at the same
position restores the display and reports a collision exactly when the sprite has a 1 bit, so never with `n = 0`. Without that
premise R163 refutes it (`SecondDrawCollidesWheneverTheSpriteHasABit`, log entry 16). -/
def Obligations.SecondDrawAfterACleanFirst : Prop :=
  ∀ (x y : RegIx) (n : Nibble) (s t : State), (n = 0 ∨ s.i.toNat + n.toNat ≤ 4096) →
    exec (.drw x y n) s = .next t → t.reg x = s.reg x → t.reg y = s.reg y → t.reg 15 = 0 →
    ∃ u, exec (.drw x y n) t = .next u ∧ u.disp = s.disp ∧
      (u.reg 15 = 1 ↔ ∃ j < n.toNat, s.byteAt (s.i.toNat + j) ≠ 0)

/-- R164's closing inference, read as it stands: the second of two identical draws reports a collision exactly when the sprite
has a 1 bit. Expected to FAIL: by R163, over pixels that were set before the first draw the second one finds them unset. -/
def Obligations.SecondDrawCollidesWheneverTheSpriteHasABit : Prop :=
  ∀ (x y : RegIx) (n : Nibble) (s t u : State), (n = 0 ∨ s.i.toNat + n.toNat ≤ 4096) →
    exec (.drw x y n) s = .next t → t.reg x = s.reg x → t.reg y = s.reg y → exec (.drw x y n) t = .next u →
    (u.reg 15 = 1 ↔ ∃ j < n.toNat, s.byteAt (s.i.toNat + j) ≠ 0)

/-! ## Keys and timers -/

/-- `SKP` and `SKNP` (R180, R181): with a key index up to 15 they skip by the level of the Step's one sample; with a greater one
they halt with KeyIndexOutOfRange (the decision 92 D9). -/
def Obligations.KeySkipsReadTheSampledLevel : Prop :=
  ∀ (x : RegIx) (s : State),
    ((s.reg x).toNat ≤ 15 →
      (∃ t, exec (.skp x) s = .next t ∧
        t.pc = (if s.pins.keys.getLsbD (s.reg x).toNat then s.pc + 2 else s.pc) ∧ Frame { pc := true } s t) ∧
      (∃ t, exec (.sknp x) s = .next t ∧
        t.pc = (if s.pins.keys.getLsbD (s.reg x).toNat then s.pc else s.pc + 2) ∧ Frame { pc := true } s t)) ∧
    (15 < (s.reg x).toNat → ∃ t, exec (.skp x) s = .next t ∧ exec (.sknp x) s = .next t ∧
      t = { s with mode := .halted ⟨.keyIndexOutOfRange, BitVec.ofNat 16 (s.reg x).toNat, s.pc - 2⟩ })

/-- `LD Vx,DT`, `LD DT,Vx` and `LD ST,Vx` (R182 to R184): each moves one byte and changes nothing else. -/
def Obligations.TimerMovesCopyOneByte : Prop :=
  ∀ (x : RegIx) (s : State),
    (∃ t, exec (.ldVxDT x) s = .next t ∧ t.reg x = s.dt ∧ Frame { regs := [x] } s t) ∧
    (∃ t, exec (.ldDTVx x) s = .next t ∧ t.dt = s.reg x ∧ Frame { dt := true } s t) ∧
    (∃ t, exec (.ldSTVx x) s = .next t ∧ t.st = s.reg x ∧ Frame { st := true } s t)

/-- `LD Vx,K` (R185): MODE becomes WaitKey(x); neither the keys nor `V[x]` are touched, whatever keys are held. -/
def Obligations.WaitForKeyEntersTheWait : Prop :=
  ∀ (x : RegIx) (s : State), ∃ t, exec (.ldVxK x) s = .next t ∧ t.mode = .waitKey x ∧ Frame { mode := true } s t

/-! ## Index register and memory -/

/-- `LD I,nnn` (R200), `ADD I,Vx` (R201) and `LD F,Vx` (R202). `ADD I,Vx` writes VF at every execution, also when `x` is 15 (that
I wraps is the decision 92 D10, that `LD I,nnn` exists is 92 D3). -/
def Obligations.IndexRegisterWrites : Prop :=
  ∀ (nnn : Addr) (x : RegIx) (s : State),
    (∃ t, exec (.ldI nnn) s = .next t ∧ t.i.toNat = nnn.toNat ∧ Frame { i := true } s t) ∧
    (∃ t, exec (.addI x) s = .next t ∧ t.i.toNat = (s.i.toNat + (s.reg x).toNat) % 65536 ∧
      (t.reg 15).toNat = (if s.i.toNat + (s.reg x).toNat > 0xFFFF then 1 else 0) ∧
      Frame { i := true, regs := [15] } s t) ∧
    (∃ t, exec (.ldF x) s = .next t ∧ t.i.toNat = 5 * (s.reg x).toNat ∧ Frame { i := true } s t)

/-- `LD B,Vx` (R203): the three decimal digits, each in a whole byte at I, I + 1 and I + 2; their value is the register's; I and
every other byte are unchanged. -/
def Obligations.BcdStoresTheDecimalDigits : Prop :=
  ∀ (x : RegIx) (s : State), s.i.toNat + 3 ≤ 4096 →
    ∃ t h d u, exec (.ldB x) s = .next t ∧ h ≤ 2 ∧ d ≤ 9 ∧ u ≤ 9 ∧ 100 * h + 10 * d + u = (s.reg x).toNat ∧
      (t.byteAt s.i.toNat).toNat = h ∧ (t.byteAt (s.i.toNat + 1)).toNat = d ∧ (t.byteAt (s.i.toNat + 2)).toNat = u ∧
      Frame { mem := [s.i.toNat, s.i.toNat + 1, s.i.toNat + 2] } s t

/-- `LD [I],Vx` (R204): `V[0]` to `V[x]` go to I, ..., I + x; I and every other byte are unchanged. -/
def Obligations.StoreWritesTheRegisterBlock : Prop :=
  ∀ (x : RegIx) (s : State), s.i.toNat + x.toNat ≤ 4095 →
    ∃ t, exec (.storeRegs x) s = .next t ∧
      (∀ k : RegIx, k.toNat ≤ x.toNat → t.byteAt (s.i.toNat + k.toNat) = s.reg k) ∧
      Frame { mem := span s.i.toNat (x.toNat + 1) } s t

/-- `LD Vx,[I]` (R205): the bytes at I, ..., I + x go to `V[0]` to `V[x]`; the registers above, I and memory are unchanged. -/
def Obligations.LoadReadsTheRegisterBlock : Prop :=
  ∀ (x : RegIx) (s : State), s.i.toNat + x.toNat ≤ 4095 →
    ∃ t, exec (.loadRegs x) s = .next t ∧
      (∀ k : RegIx, k.toNat ≤ x.toNat → t.reg k = s.byteAt (s.i.toNat + k.toNat)) ∧
      Frame { regs := regsUpTo x } s t

/-- The round trip of R205 (§8 item 3): after a bulk store, a bulk load from the same address in any state with that memory gives
the stored registers back. -/
def Obligations.LoadUndoesStore : Prop :=
  ∀ (x : RegIx) (s t u : State), s.i.toNat + x.toNat ≤ 4095 → exec (.storeRegs x) s = .next t →
    (∀ a, u.byteAt a = t.byteAt a) → u.i = t.i →
    ∃ w, exec (.loadRegs x) u = .next w ∧ ∀ k : RegIx, k.toNat ≤ x.toNat → w.reg k = s.reg k

/-- A transfer through I that does not fit halts with the lowest address out of range, and nothing is written (R163, R203 to R205;
all-or-nothing is the decision 92 D12). -/
def Obligations.TransfersOutOfRangeWriteNothing : Prop :=
  ∀ (x y : RegIx) (n : Nibble) (s t : State),
    t = { s with mode := .halted ⟨.outOfRangeAddress, if s.i.toNat < 4096 then 4096 else s.i, s.pc - 2⟩ } →
    (n ≠ 0 → 4096 < s.i.toNat + n.toNat → exec (.drw x y n) s = .next t) ∧
    (4096 < s.i.toNat + 3 → exec (.ldB x) s = .next t) ∧
    (4095 < s.i.toNat + x.toNat → exec (.storeRegs x) s = .next t ∧ exec (.loadRegs x) s = .next t)

/-- The canonical form of memory: two memories in it that read alike at every address are equal (R60; the model's, Memory.wf). -/
def Obligations.CanonicalMemoriesThatReadAlikeAreEqual : Prop :=
  ∀ (font : Font) (m m' : Memory), Memory.wf font m → Memory.wf font m' →
    (∀ a < 4096, Memory.read font m a = Memory.read font m' a) → m = m'

/-! ## The whole machine -/

/-- No instruction writes anything outside its row of the tables R22 and R66 and the writes its rule gives it, unless it halts. -/
def Obligations.InstructionsWriteOnlyWhatIsListed : Prop :=
  ∀ (i : Instr) (s t : State), s.isHalted = false → exec i s = .next t → t.isHalted = false → Frame (writesOf s i) s t

/-- No instruction depends on a register outside the reads column of R22: changing such a register first, where the instruction
does not write it, gives the same state with that register changed; where it writes it, and does not halt, the same state. -/
def Obligations.InstructionsReadOnlyTheListedRegisters : Prop :=
  ∀ (i : Instr) (s t : State) (r : RegIx) (b : Byte), r ∉ readsOf i → exec i s = .next t →
    (r ∉ (writesOf s i).regs → exec i (s.setReg r b) = .next (t.setReg r b)) ∧
    (r ∈ (writesOf s i).regs → s.isHalted = false → t.isHalted = false → exec i (s.setReg r b) = .next t)

/-- R25: how every Step leaves PC, and what a CALL pushes. -/
def Obligations.PcAfterAStep : Prop :=
  ∀ s : State,
    (s.mode = .running → 0xFFE < s.pc.toNat → ∃ t, step s = .next t ∧ t.isHalted = true ∧ t.pc = s.pc) ∧
    (s.mode = .running → s.pc.toNat ≤ 0xFFE → ∃ t, step s = .next t ∧ (t.isHalted = true → t.pc = s.pc + 2) ∧
      (t.isHalted = false → ∃ op i, s.fetch = .ok op ∧ decode op = some i ∧ t.pc = pcAfter s s.nextPins.keys s.pc i ∧
        ∀ nnn, i = .call nnn → t.stack = s.stack ++ [s.pc + 2])) ∧
    (∀ k, s.mode = .waitKey k → ∃ t, step s = .next t ∧ t.pc = s.pc)

/-- What can halt the execute stage, and what the record then holds (R222 to R225, R228): each cause has its instructions and its
one condition, and UnknownOpcode is not among them (causes 4 and 5 and the record are the decisions 92 D9, D13, D15). -/
def Obligations.EachHaltHasItsCause : Prop :=
  ∀ (i : Instr) (s t : State) (r : HaltRecord), s.isHalted = false → exec i s = .next t → t.mode = .halted r →
    r.haltPc = s.pc - 2 ∧
    ((r.cause = .stackUnderflow ∧ (∃ g, i = .ret g) ∧ s.stack = [] ∧ r.info = 0) ∨
     (r.cause = .stackOverflow ∧ (∃ nnn, i = .call nnn) ∧ s.config.stackDepth = some s.stack.length ∧ r.info = s.pc) ∨
     (r.cause = .keyIndexOutOfRange ∧
       (∃ x, (i = .skp x ∨ i = .sknp x) ∧ 15 < (s.reg x).toNat ∧ r.info.toNat = (s.reg x).toNat)) ∨
     (r.cause = .outOfRangeAddress ∧ r.info.toNat = max s.i.toNat 4096 ∧
       ((∃ x y n, i = .drw x y n ∧ n ≠ 0 ∧ 4096 < s.i.toNat + n.toNat) ∨
        (∃ x, i = .ldB x ∧ 4096 < s.i.toNat + 3) ∨
        (∃ x, (i = .storeRegs x ∨ i = .loadRegs x) ∧ 4095 < s.i.toNat + x.toNat))))

/-- R226: a Step that raises leaves the state before it but for MODE with the halt record and PC, which is advanced exactly when
the fetch succeeded; `halt_pc` is the address the Step fetched from (R224). The inputs are not state of the core; the Step has
sampled them, which is the model's choice (log entries 3 and 23). Precise halts are the decision 92 D12. -/
def Obligations.HaltsArePrecise : Prop :=
  ∀ (s t : State) (r : HaltRecord), s.isHalted = false → step s = .next t → t.mode = .halted r →
    s.mode = .running ∧ r.haltPc = s.pc ∧
    t = { s.sample with mode := .halted r, pc := if s.pc.toNat ≤ 0xFFE then s.pc + 2 else s.pc }

/-- Every Step keeps the invariant: memory in canonical form, PC at most 0x10FE (R26), return addresses at most 0x1000 (R120), the
stack within its depth (R29). -/
def Obligations.StepKeepsTheInvariant : Prop := ∀ s t : State, Inv s → step s = .next t → Inv t

/-- Every host event keeps the invariant: power-on, the rates, reset, load, Step, Tick, Run and the inputs (R285). -/
def Obligations.HostEventsKeepTheInvariant : Prop :=
  ∀ (e : HostEvent) (s t : State), Inv s → e.apply s = .next t → Inv t

/-- The invariant holds after reset (R45), with any configuration. -/
def Obligations.ResetMeetsTheInvariant : Prop :=
  Inv State.reset ∧ ∀ c : Config, Inv (State.powerOn c)

/-! ## Timers, scheduler, host -/

/-- R238: TimerDec decrements each timer by one if it is not zero, each on its own, and changes nothing else; in Halted it
changes nothing. -/
def Obligations.TimerDecCountsEachTimerDown : Prop :=
  ∀ s : State, (s.isHalted = true → s.timerDec = s) ∧
    (s.isHalted = false → s.timerDec.dt.toNat = (if s.dt.toNat > 0 then s.dt.toNat - 1 else 0) ∧
      s.timerDec.st.toNat = (if s.st.toNat > 0 then s.st.toNat - 1 else 0) ∧
      Frame { dt := true, st := true } s s.timerDec)

/-- R239: a timer loaded with `v` reaches zero after exactly `v` TimerDec events, not before, and then stays at zero. -/
def Obligations.TimerReachesZeroAfterItsValue : Prop :=
  ∀ (s : State) (n : Nat), s.isHalted = false →
    (((State.timerDec^[n]) s).dt = 0 ↔ s.dt.toNat ≤ n) ∧ (((State.timerDec^[n]) s).st = 0 ↔ s.st.toNat ≤ n)

/-- R240: a Tick is `STEPS_PER_TICK` Steps and then one TimerDec. -/
def Obligations.TickIsStepsThenOneDecrement : Prop :=
  ∀ s : State, ∃ u, steps s.config.stepsPerTick s = .next u ∧ tick s = .next u.timerDec

/-- R241 with exact arithmetic (92 D16): a Run is some number of Steps and then some number of TimerDecs; each accumulator gains
what the elapsed time brings and loses one Step, or one period, for each; what is left does not exceed one Step, or one period,
and, where something ran, is more than nothing. That the accumulators are still brought down when a Run halts on its way is the
model's deduction (log entry 10). The guard against a Run in Halted is 92 D24. -/
def Obligations.RunAccountsForElapsedTime : Prop :=
  ∀ (s : State) (e : Rat), s.config.accArith = .exact → 0 ≤ e → 0 < s.config.freq → s.isHalted = false →
    ∃ (n m : Nat) (u t : State), steps n s = .next u ∧ run e s = .next t ∧
      t = { (State.timerDec^[m]) u with accStep := t.accStep, accTimer := t.accTimer } ∧
      t.accStep + n = s.accStep + e * s.config.freq / 1000 ∧ t.accStep ≤ 1 ∧ (0 < n → 0 < t.accStep) ∧
      t.accTimer + m * (1000 / 60) = s.accTimer + e ∧ t.accTimer ≤ 1000 / 60 ∧ (0 < m → 0 < t.accTimer)

/-- The end of a run (R284, a convention of the decision 92 D26): Halted, or Running with PC at the word 0x1nnn whose `nnn` is PC
itself. The opcode number is the decision 92 D2. -/
def Obligations.FinishedIsHaltedOrAJumpToItself : Prop :=
  ∀ s : State, s.finished = true ↔
    s.isHalted = true ∨ (s.mode = .running ∧ s.fetch = .ok (0x1000 + s.pc))

/-- R284: once a run has ended no Step changes any state; what still happens is that timers count, that Run keeps its accumulators,
and that Steps outside Halted sample the inputs, which is the model's choice (log entry 3). The ended run stays ended through every
Step, timer decrement, Tick and Run. The end condition is the decision 92 D26. -/
def Obligations.FinishedMachinesStayFinished : Prop :=
  ∀ s : State, s.finished = true →
    step s = .next (if s.isHalted then s else s.sample) ∧ s.sample.finished = true ∧ s.timerDec.finished = true ∧
    (∃ t, tick s = .next t ∧ t.finished = true ∧
      t = { s with dt := t.dt, st := t.st, pins := t.pins, pending := t.pending, samples := t.samples }) ∧
    (∀ e t, run e s = .next t → t.finished = true ∧
      t = { s with
        dt := t.dt, st := t.st, accStep := t.accStep, accTimer := t.accTimer
        pins := t.pins, pending := t.pending, samples := t.samples })

/-- R68: a program of at most 3584 bytes goes to 0x200 upward and nothing else changes; a longer one halts with
OutOfRangeAddress(0x1000) and writes nothing (the decision 92 D25). -/
def Obligations.LoadProgramWritesFromTheEntry : Prop :=
  ∀ (s : State) (bytes : List Byte), s.isHalted = false →
    (bytes.length ≤ 3584 →
      (∀ k (h : k < bytes.length), (s.loadProgram bytes).byteAt (0x200 + k) = bytes[k]) ∧
      Frame { mem := span 0x200 bytes.length } s (s.loadProgram bytes)) ∧
    (3584 < bytes.length → s.loadProgram bytes = { s with mode := .halted ⟨.outOfRangeAddress, 0x1000, s.pc⟩ })

/-- Running a freshly loaded program: after a reset and a load, the next Step runs the instruction the program's first two bytes
decode to (R68, R270, R274). That the Step has sampled the inputs is the model's choice (log entry 3). -/
def Obligations.LoadedProgramRunsFromTheEntry : Prop :=
  ∀ (s : State) (hi lo : Byte) (rest : List Byte) (i : Instr), rest.length ≤ 3582 →
    decode (BitVec.ofNat 16 (hi.toNat * 256 + lo.toNat)) = some i →
    ∃ t, applyAll [.reset, .loadProgram (hi :: lo :: rest)] s = .next t ∧
      step t = exec i { t.sample with pc := 0x202 }
end

