-- ==== Sys2Proof/Laws/Decode.lean ====
section
/-! SUPPORT. The fields of a packed word are what was packed, and every word is its fields packed. -/

namespace Sys2Proof

@[simp] theorem fieldT_packNnn (t : Nibble) (nnn : Addr) : fieldT (packNnn t nnn) = t :=
  BitVec.eq_of_getLsbD_eq fun k hk => by interval_cases k <;> simp [fieldT, packNnn]

@[simp] theorem fieldNnn_packNnn (t : Nibble) (nnn : Addr) : fieldNnn (packNnn t nnn) = nnn :=
  BitVec.eq_of_getLsbD_eq fun k hk => by interval_cases k <;> simp [fieldNnn, packNnn]

@[simp] theorem fieldT_packXKk (t : Nibble) (x : RegIx) (kk : Byte) : fieldT (packXKk t x kk) = t :=
  BitVec.eq_of_getLsbD_eq fun k hk => by interval_cases k <;> simp [fieldT, packXKk]

@[simp] theorem fieldX_packXKk (t : Nibble) (x : RegIx) (kk : Byte) : fieldX (packXKk t x kk) = x :=
  BitVec.eq_of_getLsbD_eq fun k hk => by interval_cases k <;> simp [fieldX, packXKk]

@[simp] theorem fieldKk_packXKk (t : Nibble) (x : RegIx) (kk : Byte) : fieldKk (packXKk t x kk) = kk :=
  BitVec.eq_of_getLsbD_eq fun k hk => by interval_cases k <;> simp [fieldKk, packXKk]

@[simp] theorem fieldT_packXYN (t : Nibble) (x y : RegIx) (n : Nibble) : fieldT (packXYN t x y n) = t :=
  BitVec.eq_of_getLsbD_eq fun k hk => by interval_cases k <;> simp [fieldT, packXYN]

@[simp] theorem fieldX_packXYN (t : Nibble) (x y : RegIx) (n : Nibble) : fieldX (packXYN t x y n) = x :=
  BitVec.eq_of_getLsbD_eq fun k hk => by interval_cases k <;> simp [fieldX, packXYN]

@[simp] theorem fieldY_packXYN (t : Nibble) (x y : RegIx) (n : Nibble) : fieldY (packXYN t x y n) = y :=
  BitVec.eq_of_getLsbD_eq fun k hk => by interval_cases k <;> simp [fieldY, packXYN]

@[simp] theorem fieldN_packXYN (t : Nibble) (x y : RegIx) (n : Nibble) : fieldN (packXYN t x y n) = n :=
  BitVec.eq_of_getLsbD_eq fun k hk => by interval_cases k <;> simp [fieldN, packXYN]

/-- Every word is its fields packed, in each format. -/
theorem packNnn_fields (op : Word) : packNnn (fieldT op) (fieldNnn op) = op :=
  BitVec.eq_of_getLsbD_eq fun k hk => by interval_cases k <;> simp [fieldT, fieldNnn, packNnn]

theorem packXKk_fields (op : Word) : packXKk (fieldT op) (fieldX op) (fieldKk op) = op :=
  BitVec.eq_of_getLsbD_eq fun k hk => by interval_cases k <;> simp [fieldT, fieldX, fieldKk, packXKk]

theorem packXYN_fields (op : Word) : packXYN (fieldT op) (fieldX op) (fieldY op) (fieldN op) = op :=
  BitVec.eq_of_getLsbD_eq fun k hk => by interval_cases k <;> simp [fieldT, fieldX, fieldY, fieldN, packXYN]

/-- The opcode of two bytes as a number: the first byte is the most significant (R64). -/
theorem opcodeOf_toNat (hi lo : Byte) : (opcodeOf hi lo).toNat = hi.toNat * 256 + lo.toNat := by
  have hh := hi.isLt
  have hl := lo.isLt
  simp only [opcodeOf, BitVec.toNat_or, BitVec.toNat_shiftLeft, BitVec.toNat_setWidth]
  rw [Nat.mod_eq_of_lt (by omega : hi.toNat < 2 ^ 16), Nat.mod_eq_of_lt (by omega : lo.toNat < 2 ^ 16),
    Nat.shiftLeft_eq, Nat.mod_eq_of_lt (by omega), Nat.mul_comm, ← Nat.two_pow_add_eq_or_of_lt (by omega)]

/-- The bytes of an opcode give it back. -/
theorem opcodeOf_bytes (op : Word) : opcodeOf (op.extractLsb' 8 8) (op.extractLsb' 0 8) = op :=
  BitVec.eq_of_getLsbD_eq fun k hk => by interval_cases k <;> simp [opcodeOf]

/-- A table word of 16 bits decodes as the opcode it is. -/
theorem decodeTableWord_eq (w : Nat) : decodeTableWord 16 w = decode (BitVec.ofNat 16 w) := by
  have h : BitVec.ofNat 16 (w % 2 ^ 16) = BitVec.ofNat 16 w := BitVec.eq_of_toNat_eq (by simp)
  rw [decodeTableWord, h, bytesOf, decodeBytes, opcodeOf_bytes]
  cases decode (BitVec.ofNat 16 w) <;> rfl

/-! What the masks of R95 keep of a packed word. -/

theorem packNnn_mask (t : Nibble) (nnn : Addr) : packNnn t nnn &&& 0xF000 = packNnn t 0 :=
  BitVec.eq_of_getLsbD_eq fun k hk => by interval_cases k <;> simp [packNnn]

theorem packXKk_mask (t : Nibble) (x : RegIx) (kk : Byte) : packXKk t x kk &&& 0xF000 = packXKk t 0 0 :=
  BitVec.eq_of_getLsbD_eq fun k hk => by interval_cases k <;> simp [packXKk]

theorem packXKk_mask_low (t : Nibble) (x : RegIx) (kk : Byte) : packXKk t x kk &&& 0xF0FF = packXKk t 0 kk :=
  BitVec.eq_of_getLsbD_eq fun k hk => by interval_cases k <;> simp [packXKk]

theorem packXYN_mask (t : Nibble) (x y : RegIx) (n : Nibble) : packXYN t x y n &&& 0xF000 = packXYN t 0 0 0 :=
  BitVec.eq_of_getLsbD_eq fun k hk => by interval_cases k <;> simp [packXYN]

theorem packXYN_mask_low (t : Nibble) (x y : RegIx) (n : Nibble) : packXYN t x y n &&& 0xF00F = packXYN t 0 0 n :=
  BitVec.eq_of_getLsbD_eq fun k hk => by interval_cases k <;> simp [packXYN]

end Sys2Proof
end

