-- ==== Sys2Proof/Laws/Display.lean ====
section
/-! SUPPORT. What the sprite/XOR engine does, pixel by pixel: each place a sprite covers is toggled once, and a hit is a covered
place that was set. -/

namespace Sys2Proof.Machine

theorem Display.pixel_toggle (d : Display) (r r' : Fin 32) (c c' : Fin 64) :
    (d.toggle r c).pixel r' c' = (d.pixel r' c' ^^ decide (r' = r ∧ c' = c)) := by
  unfold Display.pixel Display.toggle
  simp only [Fin.getElem_fin, Vector.getElem_set]
  by_cases h : r' = r
  · subst h
    by_cases hc : c' = c
    · subst hc
      simp
    · have : ¬ (c'.val = c.val) := fun e => hc (Fin.ext e)
      simp [hc, this]
  · have : ¬ (r.val = r'.val) := fun e => h (Fin.ext e.symm)
    simp [h, this]

/-- Two displays with the same pixels are equal. -/
theorem Display.pixel_ext {d e : Display} (h : ∀ r c, d.pixel r c = e.pixel r c) : d = e := by
  refine Vector.ext fun r hr => BitVec.eq_of_getLsbD_eq fun c hc => ?_
  exact h ⟨r, hr⟩ ⟨c, hc⟩

/-- Clearing unsets every pixel. -/
theorem Display.pixel_clear (r : Fin 32) (c : Fin 64) : Display.clear.pixel r c = false := by
  simp [Display.pixel, Display.clear]

/-- Columns less than 64 apart are different. -/
theorem wrapCol_inj {x i j : Nat} (h : wrapCol (x + i) = wrapCol (x + j)) (hi : i < 64) (hj : j < 64) : i = j := by
  have := congrArg Fin.val h
  simp only [wrapCol, Fin.val_ofNat] at this
  omega

/-- Rows less than 32 apart are different. -/
theorem wrapRow_inj {y i j : Nat} (h : wrapRow (y + i) = wrapRow (y + j)) (hi : i < 32) (hj : j < 32) : i = j := by
  have := congrArg Fin.val h
  simp only [wrapRow, Fin.val_ofNat] at this
  omega

/-- The places on the display that one sprite row at column `x` covers with a set bit among its first `m` columns. -/
def RowCovers (x m : Nat) (b : Byte) (c : Fin 64) : Prop := ∃ i < m, b.getLsbD (7 - i) = true ∧ c = wrapCol (x + i)

/-- The places that a sprite at `(x, y)` covers with a set bit (R161, R162). -/
def SpriteCovers (x y : Nat) (bs : List Byte) (r : Fin 32) (c : Fin 64) : Prop :=
  ∃ j, ∃ h : j < bs.length, r = wrapRow (y + j) ∧ RowCovers x 8 bs[j] c

open Classical in
/-- What the first `m` columns of a sprite row do. -/
theorem Canvas.drawRow_prefix (x : Nat) (r : Fin 32) (b : Byte) (k : Canvas) (m : Nat) (hm : m ≤ 64) :
    (∀ r' c', Display.pixel ((List.range m).foldl
        (fun k i => if b.getLsbD (7 - i) then Canvas.drawPixel k r (wrapCol (x + i)) else k) k).1 r' c' =
      (k.1.pixel r' c' ^^ decide (r' = r ∧ RowCovers x m b c'))) ∧
    ((List.range m).foldl
        (fun k i => if b.getLsbD (7 - i) then Canvas.drawPixel k r (wrapCol (x + i)) else k) k).2 =
      (k.2 || decide (∃ c, RowCovers x m b c ∧ k.1.pixel r c = true)) := by
  induction m with
  | zero => simp [RowCovers]
  | succ m ih =>
    obtain ⟨ihp, ihh⟩ := ih (by omega)
    rw [List.range_succ, List.foldl_append]
    simp only [List.foldl_cons, List.foldl_nil]
    have hfresh : ¬ RowCovers x m b (wrapCol (x + m)) := by
      rintro ⟨i, hi, -, h⟩
      exact absurd (wrapCol_inj h (by omega) (by omega)) (by omega)
    have hcov : ∀ c, RowCovers x (m + 1) b c ↔
        RowCovers x m b c ∨ (b.getLsbD (7 - m) = true ∧ c = wrapCol (x + m)) := by
      intro c
      constructor
      · rintro ⟨i, hi, hb⟩
        rcases Nat.lt_succ_iff_lt_or_eq.mp hi with hi | rfl
        · exact .inl ⟨i, hi, hb⟩
        · exact .inr hb
      · rintro (⟨i, hi, hb⟩ | hb)
        · exact ⟨i, by omega, hb⟩
        · exact ⟨m, by omega, hb⟩
    split
    · rename_i hb
      refine ⟨fun r' c' => ?_, ?_⟩
      · rw [Canvas.drawPixel, Display.pixel_toggle, ihp, Bool.xor_assoc]
        congr 1
        by_cases hr : r' = r
        · by_cases hc : c' = wrapCol (x + m)
          · subst hc
            simp [hr, hcov, hfresh, hb]
          · simp [hr, hcov, hc]
        · simp [hr]
      · rw [Canvas.drawPixel]
        simp only
        rw [ihh, ihp, Bool.or_assoc]
        congr 1
        rw [show decide (r = r ∧ RowCovers x m b (wrapCol (x + m))) = false from by simp [hfresh], Bool.xor_false]
        by_cases h1 : ∃ c, RowCovers x m b c ∧ k.1.pixel r c = true
        · have h2 : ∃ c, RowCovers x (m + 1) b c ∧ k.1.pixel r c = true := by
            obtain ⟨c, hc, hp⟩ := h1
            exact ⟨c, (hcov c).mpr (.inl hc), hp⟩
          simp only [h1, h2, decide_true, Bool.true_or]
        · by_cases h3 : k.1.pixel r (wrapCol (x + m)) = true
          · have h2 : ∃ c, RowCovers x (m + 1) b c ∧ k.1.pixel r c = true :=
              ⟨_, (hcov _).mpr (.inr ⟨hb, rfl⟩), h3⟩
            simp only [h2, h3, decide_true, Bool.or_true]
          · have h2 : ¬ ∃ c, RowCovers x (m + 1) b c ∧ k.1.pixel r c = true := by
              rintro ⟨c, hc, hp⟩
              rcases (hcov c).mp hc with hc | ⟨-, rfl⟩
              · exact h1 ⟨c, hc, hp⟩
              · exact h3 hp
            simp only [h1, h2, decide_false, Bool.false_or]
            simpa using h3
    · rename_i hb
      have hsame : ∀ c, RowCovers x (m + 1) b c ↔ RowCovers x m b c := fun c => by
        rw [hcov]
        simp [hb]
      exact ⟨fun r' c' => by rw [ihp]; simp only [hsame], by rw [ihh]; simp only [hsame]⟩

open Classical in
/-- What one sprite row does. -/
theorem Canvas.drawRow_spec (x : Nat) (r : Fin 32) (b : Byte) (k : Canvas) :
    (∀ r' c', (k.drawRow x r b).1.pixel r' c' = (k.1.pixel r' c' ^^ decide (r' = r ∧ RowCovers x 8 b c'))) ∧
    (k.drawRow x r b).2 = (k.2 || decide (∃ c, RowCovers x 8 b c ∧ k.1.pixel r c = true)) :=
  Canvas.drawRow_prefix x r b k 8 (by omega)

theorem spriteCovers_cons {x y : Nat} {b : Byte} {bs : List Byte} {r : Fin 32} {c : Fin 64} :
    SpriteCovers x y (b :: bs) r c ↔ (r = wrapRow y ∧ RowCovers x 8 b c) ∨ SpriteCovers x (y + 1) bs r c := by
  constructor
  · rintro ⟨j, hj, hr, hc⟩
    rcases j with _ | j
    · exact .inl ⟨hr, hc⟩
    · exact .inr ⟨j, by simpa using hj, by rw [hr]; congr 1; omega, hc⟩
  · rintro (⟨hr, hc⟩ | ⟨j, hj, hr, hc⟩)
    · exact ⟨0, by simp, hr, hc⟩
    · exact ⟨j + 1, by simpa using hj, by rw [hr]; congr 1; omega, hc⟩

open Classical in
/-- What the rows of a sprite do, from row `y` down. -/
theorem Canvas.drawRows_spec (x y : Nat) (bs : List Byte) (k : Canvas) (hbs : bs.length ≤ 32) :
    (∀ r c, (k.drawRows x y bs).1.pixel r c = (k.1.pixel r c ^^ decide (SpriteCovers x y bs r c))) ∧
    (k.drawRows x y bs).2 = (k.2 || decide (∃ r c, SpriteCovers x y bs r c ∧ k.1.pixel r c = true)) := by
  induction bs generalizing y k with
  | nil => simp [Canvas.drawRows, SpriteCovers]
  | cons b bs ih =>
    rw [List.length_cons] at hbs
    obtain ⟨rp, rh⟩ := Canvas.drawRow_spec x (wrapRow y) b k
    obtain ⟨ihp, ihh⟩ := ih (y + 1) (k.drawRow x (wrapRow y) b) (by omega)
    have hfresh : ∀ c, ¬ SpriteCovers x (y + 1) bs (wrapRow y) c := by
      rintro c ⟨j, hj, hr, -⟩
      have := wrapRow_inj (y := y) (i := 0) (j := j + 1) (by rw [Nat.add_zero, hr]; congr 1; omega) (by omega) (by omega)
      omega
    rw [Canvas.drawRows]
    refine ⟨fun r c => ?_, ?_⟩
    · rw [ihp, rp, Bool.xor_assoc]
      congr 1
      by_cases hr : r = wrapRow y
      · subst hr
        simp [spriteCovers_cons, hfresh c]
      · simp [spriteCovers_cons, hr]
    · rw [ihh, rh, Bool.or_assoc]
      refine congrArg (k.2 || ·) ?_
      have hold : ∀ r c, SpriteCovers x (y + 1) bs r c → (k.drawRow x (wrapRow y) b).1.pixel r c = k.1.pixel r c := by
        intro r c h
        rw [rp, show decide (r = wrapRow y ∧ RowCovers x 8 b c) = false from ?_, Bool.xor_false]
        have : r ≠ wrapRow y := fun e => hfresh c (e ▸ h)
        simp [this]
      rw [Bool.eq_iff_iff, Bool.or_eq_true, decide_eq_true_iff, decide_eq_true_iff, decide_eq_true_iff]
      constructor
      · rintro (⟨c, hc, hp⟩ | ⟨r, c, hc, hp⟩)
        · exact ⟨wrapRow y, c, spriteCovers_cons.mpr (.inl ⟨rfl, hc⟩), hp⟩
        · exact ⟨r, c, spriteCovers_cons.mpr (.inr hc), (hold r c hc) ▸ hp⟩
      · rintro ⟨r, c, hc, hp⟩
        rcases spriteCovers_cons.mp hc with ⟨rfl, hrow⟩ | hrest
        · exact .inl ⟨c, hrow, hp⟩
        · exact .inr ⟨r, c, hrest, by rw [hold r c hrest]; exact hp⟩

open Classical in
/-- The sprite engine (R163): every covered place is toggled, and the collision is reported exactly when a covered place was
set. -/
theorem Display.drawSprite_spec (d : Display) (x y : Nat) (bs : List Byte) (hbs : bs.length ≤ 32) :
    (∀ r c, (d.drawSprite x y bs).1.pixel r c = (d.pixel r c ^^ decide (SpriteCovers x y bs r c))) ∧
    (d.drawSprite x y bs).2 = decide (∃ r c, SpriteCovers x y bs r c ∧ d.pixel r c = true) := by
  simpa [Display.drawSprite] using Canvas.drawRows_spec x y bs (d, false) hbs

end Sys2Proof.Machine
end

