-- ==== Sys2Proof/Laws/Memory.lean ====
section
/-! SUPPORT. The memory laws: a read after a write, and the canonical form, which every operation keeps and which makes equal
contents equal data. -/

namespace Sys2Proof.Machine

variable {font : Font}

/-- The empty list is in canonical form. -/
theorem Memory.wf_nil : Memory.wf font [] := ⟨List.Pairwise.nil, by simp⟩

theorem Memory.wf.tail {c : Host.Cell} {m : Memory} (h : Memory.wf font (c :: m)) : Memory.wf font m :=
  ⟨(List.pairwise_cons.mp h.1).2, fun d hd => h.2 d (List.mem_cons_of_mem _ hd)⟩

theorem Memory.lookup_cons (c : Host.Cell) (m : Memory) (a : Nat) :
    List.lookup a (c :: m) = if a = c.1 then some c.2 else List.lookup a m := by
  obtain ⟨k, b⟩ := c
  rw [List.lookup_cons]
  by_cases h : a = k
  · simp [h]
  · simp [h, show (a == k) = false from by simpa using h]

theorem Memory.lookup_insert (m : Memory) (a : Nat) (b : Byte) (k : Nat) :
    (Memory.insert a b m).lookup k = if k = a then some b else m.lookup k := by
  induction m with
  | nil => simp [Memory.insert, Memory.lookup_cons]
  | cons c m ih =>
    unfold Memory.insert
    split
    · rw [Memory.lookup_cons]
    · split
      · simp only [Memory.lookup_cons]
        split <;> simp_all
      · simp only [Memory.lookup_cons, ih]
        split <;> split <;> simp_all

theorem Memory.lookup_erase (m : Memory) (a k : Nat) :
    (Memory.erase a m).lookup k = if k = a then none else m.lookup k := by
  unfold Memory.erase
  induction m with
  | nil => simp
  | cons c m ih =>
    rw [List.filter_cons, Memory.lookup_cons]
    by_cases hc : c.1 = a
    · rw [if_neg (by simpa using hc), ih]
      split <;> simp_all
    · rw [if_pos (by simpa using hc), Memory.lookup_cons, ih]
      split <;> split <;> simp_all

theorem Memory.mem_insert {m : Memory} {a : Nat} {b : Byte} {c : Host.Cell} (h : c ∈ Memory.insert a b m) :
    c = (a, b) ∨ c ∈ m := by
  induction m with
  | nil => simpa [Memory.insert] using h
  | cons d m ih =>
    unfold Memory.insert at h
    split at h
    · simpa using h
    · split at h
      · rcases List.mem_cons.mp h with h | h <;> simp [h]
      · rcases List.mem_cons.mp h with h | h
        · simp [h]
        · rcases ih h with h | h <;> simp [h]

theorem Memory.insert_wf {m : Memory} (h : Memory.wf font m) {a : Nat} {b : Byte} (ha : a < Config.memSize)
    (hb : b ≠ Memory.initial font a) : Memory.wf font (Memory.insert a b m) := by
  refine ⟨?_, fun c hc => ?_⟩
  · induction m with
    | nil => simp [Memory.insert]
    | cons c m ih =>
      have ⟨hc, hm⟩ := List.pairwise_cons.mp h.1
      unfold Memory.insert
      split
      · rename_i hlt
        refine List.pairwise_cons.mpr ⟨fun d hd => ?_, h.1⟩
        rcases List.mem_cons.mp hd with rfl | hd
        · exact hlt
        · exact hlt.trans (hc d hd)
      · split
        · rename_i heq
          exact List.pairwise_cons.mpr ⟨fun d hd => heq ▸ hc d hd, hm⟩
        · refine List.pairwise_cons.mpr ⟨fun d hd => ?_, ih h.tail⟩
          rcases Memory.mem_insert hd with rfl | hd
          · simp only
            omega
          · exact hc d hd
  · rcases Memory.mem_insert hc with rfl | hc
    · exact ⟨ha, hb⟩
    · exact h.2 c hc

theorem Memory.erase_wf {m : Memory} (h : Memory.wf font m) (a : Nat) : Memory.wf font (Memory.erase a m) :=
  ⟨h.1.filter _, fun c hc => h.2 c (List.mem_of_mem_filter hc)⟩

/-- A store keeps the canonical form. -/
theorem Memory.write_wf {m : Memory} (h : Memory.wf font m) (a : Nat) (b : Byte) :
    Memory.wf font (Memory.write font m a b) := by
  unfold Memory.write
  split
  · split
    · exact Memory.erase_wf h a
    · exact Memory.insert_wf h ‹_› ‹_›
  · exact h

/-- Stores of several bytes keep the canonical form. -/
theorem Memory.writeBytes_wf {m : Memory} (h : Memory.wf font m) (a : Nat) (bs : List Byte) :
    Memory.wf font (Memory.writeBytes font m a bs) := by
  induction bs generalizing m a with
  | nil => exact h
  | cons b bs ih => exact ih (Memory.write_wf h a b) (a + 1)

/-- A store changes its own address only. -/
theorem Memory.read_write_ne (m : Memory) {a k : Nat} (b : Byte) (hk : k ≠ a) :
    Memory.read font (Memory.write font m a b) k = Memory.read font m k := by
  unfold Memory.read Memory.write
  split
  · split
    · rw [Memory.lookup_erase, if_neg hk]
    · rw [Memory.lookup_insert, if_neg hk]
  · rfl

/-- A read after a store to the same address gives the stored byte. -/
theorem Memory.read_write_same (m : Memory) {a : Nat} (b : Byte) (ha : a < Config.memSize) :
    Memory.read font (Memory.write font m a b) a = b := by
  unfold Memory.read Memory.write
  rw [if_pos ha]
  split
  · rw [Memory.lookup_erase, if_pos rfl]
    exact Eq.symm ‹_›
  · rw [Memory.lookup_insert, if_pos rfl]
    rfl

/-- What memory holds after a store of several bytes: the stored byte inside the span, the old one outside. -/
theorem Memory.read_writeBytes (m : Memory) {a : Nat} {bs : List Byte} (ha : a + bs.length ≤ Config.memSize) (k : Nat) :
    Memory.read font (Memory.writeBytes font m a bs) k =
      if a ≤ k then (bs[k - a]?).getD (Memory.read font m k) else Memory.read font m k := by
  induction bs generalizing m a with
  | nil => simp [Memory.writeBytes]
  | cons b bs ih =>
    rw [List.length_cons] at ha
    rw [Memory.writeBytes, ih _ (by omega)]
    rcases lt_trichotomy k a with hk | rfl | hk
    · rw [if_neg (by omega), if_neg (by omega), Memory.read_write_ne m b (by omega)]
    · rw [if_neg (by omega), if_pos le_rfl, Memory.read_write_same m b (by omega)]
      simp
    · rw [if_pos (by omega), if_pos (by omega), Memory.read_write_ne m b (by omega),
        show k - a = (k - (a + 1)) + 1 by omega, List.getElem?_cons_succ]

/-- Outside the stored span memory reads as before, wherever the span lies. -/
theorem Memory.read_writeBytes_outside (m : Memory) {a : Nat} {bs : List Byte} {k : Nat} (hk : k < a ∨ a + bs.length ≤ k) :
    Memory.read font (Memory.writeBytes font m a bs) k = Memory.read font m k := by
  induction bs generalizing m a with
  | nil => rfl
  | cons b bs ih =>
    rw [List.length_cons] at hk
    rw [Memory.writeBytes, ih _ (by omega), Memory.read_write_ne m b (by omega)]

/-- In canonical form the listed byte of an address is what a read gives. -/
theorem Memory.read_mem {m : Memory} (h : Memory.wf font m) {a : Nat} {b : Byte} (hm : (a, b) ∈ m) :
    Memory.read font m a = b := by
  unfold Memory.read
  induction m with
  | nil => simp at hm
  | cons c m ih =>
    rw [Memory.lookup_cons]
    rcases List.mem_cons.mp hm with rfl | hm
    · simp
    · rw [if_neg ((List.pairwise_cons.mp h.1).1 _ hm).ne']
      exact ih h.tail hm

end Sys2Proof.Machine
end

