-- ==== Sys2Proof/Laws/State.lean ====
section
/-! SUPPORT. One lemma per field per update of State, each true by rfl. -/

namespace Sys2Proof.Machine

@[simp] theorem State.setReg_v (s : State) (x : RegIx) (b : Byte) : (s.setReg x b).v = s.v.set x.toNat b x.isLt := rfl
@[simp] theorem State.setReg_pc (s : State) (x : RegIx) (b : Byte) : (s.setReg x b).pc = s.pc := rfl
@[simp] theorem State.setReg_i (s : State) (x : RegIx) (b : Byte) : (s.setReg x b).i = s.i := rfl
@[simp] theorem State.setReg_dt (s : State) (x : RegIx) (b : Byte) : (s.setReg x b).dt = s.dt := rfl
@[simp] theorem State.setReg_st (s : State) (x : RegIx) (b : Byte) : (s.setReg x b).st = s.st := rfl
@[simp] theorem State.setReg_stack (s : State) (x : RegIx) (b : Byte) : (s.setReg x b).stack = s.stack := rfl
@[simp] theorem State.setReg_mode (s : State) (x : RegIx) (b : Byte) : (s.setReg x b).mode = s.mode := rfl
@[simp] theorem State.setReg_mem (s : State) (x : RegIx) (b : Byte) : (s.setReg x b).mem = s.mem := rfl
@[simp] theorem State.setReg_disp (s : State) (x : RegIx) (b : Byte) : (s.setReg x b).disp = s.disp := rfl
@[simp] theorem State.setReg_accStep (s : State) (x : RegIx) (b : Byte) : (s.setReg x b).accStep = s.accStep := rfl
@[simp] theorem State.setReg_accTimer (s : State) (x : RegIx) (b : Byte) : (s.setReg x b).accTimer = s.accTimer := rfl
@[simp] theorem State.setReg_config (s : State) (x : RegIx) (b : Byte) : (s.setReg x b).config = s.config := rfl
@[simp] theorem State.setReg_pins (s : State) (x : RegIx) (b : Byte) : (s.setReg x b).pins = s.pins := rfl
@[simp] theorem State.setReg_pending (s : State) (x : RegIx) (b : Byte) : (s.setReg x b).pending = s.pending := rfl
@[simp] theorem State.setReg_samples (s : State) (x : RegIx) (b : Byte) : (s.setReg x b).samples = s.samples := rfl
@[simp] theorem State.setReg_byteAt (s : State) (x : RegIx) (b : Byte) (k : Nat) : (s.setReg x b).byteAt k = s.byteAt k := rfl

@[simp] theorem State.setVF_v (s : State) (f : Byte) : (s.setVF f).v = s.v.set 15 f := rfl
@[simp] theorem State.setVF_pc (s : State) (f : Byte) : (s.setVF f).pc = s.pc := rfl
@[simp] theorem State.setVF_i (s : State) (f : Byte) : (s.setVF f).i = s.i := rfl
@[simp] theorem State.setVF_dt (s : State) (f : Byte) : (s.setVF f).dt = s.dt := rfl
@[simp] theorem State.setVF_st (s : State) (f : Byte) : (s.setVF f).st = s.st := rfl
@[simp] theorem State.setVF_stack (s : State) (f : Byte) : (s.setVF f).stack = s.stack := rfl
@[simp] theorem State.setVF_mode (s : State) (f : Byte) : (s.setVF f).mode = s.mode := rfl
@[simp] theorem State.setVF_mem (s : State) (f : Byte) : (s.setVF f).mem = s.mem := rfl
@[simp] theorem State.setVF_disp (s : State) (f : Byte) : (s.setVF f).disp = s.disp := rfl
@[simp] theorem State.setVF_accStep (s : State) (f : Byte) : (s.setVF f).accStep = s.accStep := rfl
@[simp] theorem State.setVF_accTimer (s : State) (f : Byte) : (s.setVF f).accTimer = s.accTimer := rfl
@[simp] theorem State.setVF_config (s : State) (f : Byte) : (s.setVF f).config = s.config := rfl
@[simp] theorem State.setVF_pins (s : State) (f : Byte) : (s.setVF f).pins = s.pins := rfl
@[simp] theorem State.setVF_pending (s : State) (f : Byte) : (s.setVF f).pending = s.pending := rfl
@[simp] theorem State.setVF_samples (s : State) (f : Byte) : (s.setVF f).samples = s.samples := rfl
@[simp] theorem State.setVF_byteAt (s : State) (f : Byte) (k : Nat) : (s.setVF f).byteAt k = s.byteAt k := rfl

@[simp] theorem State.setPc_v (s : State) (t : Word) : (s.setPc t).v = s.v := rfl
@[simp] theorem State.setPc_pc (s : State) (t : Word) : (s.setPc t).pc = t := rfl
@[simp] theorem State.setPc_i (s : State) (t : Word) : (s.setPc t).i = s.i := rfl
@[simp] theorem State.setPc_dt (s : State) (t : Word) : (s.setPc t).dt = s.dt := rfl
@[simp] theorem State.setPc_st (s : State) (t : Word) : (s.setPc t).st = s.st := rfl
@[simp] theorem State.setPc_stack (s : State) (t : Word) : (s.setPc t).stack = s.stack := rfl
@[simp] theorem State.setPc_mode (s : State) (t : Word) : (s.setPc t).mode = s.mode := rfl
@[simp] theorem State.setPc_mem (s : State) (t : Word) : (s.setPc t).mem = s.mem := rfl
@[simp] theorem State.setPc_disp (s : State) (t : Word) : (s.setPc t).disp = s.disp := rfl
@[simp] theorem State.setPc_accStep (s : State) (t : Word) : (s.setPc t).accStep = s.accStep := rfl
@[simp] theorem State.setPc_accTimer (s : State) (t : Word) : (s.setPc t).accTimer = s.accTimer := rfl
@[simp] theorem State.setPc_config (s : State) (t : Word) : (s.setPc t).config = s.config := rfl
@[simp] theorem State.setPc_pins (s : State) (t : Word) : (s.setPc t).pins = s.pins := rfl
@[simp] theorem State.setPc_pending (s : State) (t : Word) : (s.setPc t).pending = s.pending := rfl
@[simp] theorem State.setPc_samples (s : State) (t : Word) : (s.setPc t).samples = s.samples := rfl
@[simp] theorem State.setPc_reg (s : State) (t : Word) (r : RegIx) : (s.setPc t).reg r = s.reg r := rfl
@[simp] theorem State.setPc_byteAt (s : State) (t : Word) (k : Nat) : (s.setPc t).byteAt k = s.byteAt k := rfl

@[simp] theorem State.setI_v (s : State) (w : Word) : (s.setI w).v = s.v := rfl
@[simp] theorem State.setI_pc (s : State) (w : Word) : (s.setI w).pc = s.pc := rfl
@[simp] theorem State.setI_i (s : State) (w : Word) : (s.setI w).i = w := rfl
@[simp] theorem State.setI_dt (s : State) (w : Word) : (s.setI w).dt = s.dt := rfl
@[simp] theorem State.setI_st (s : State) (w : Word) : (s.setI w).st = s.st := rfl
@[simp] theorem State.setI_stack (s : State) (w : Word) : (s.setI w).stack = s.stack := rfl
@[simp] theorem State.setI_mode (s : State) (w : Word) : (s.setI w).mode = s.mode := rfl
@[simp] theorem State.setI_mem (s : State) (w : Word) : (s.setI w).mem = s.mem := rfl
@[simp] theorem State.setI_disp (s : State) (w : Word) : (s.setI w).disp = s.disp := rfl
@[simp] theorem State.setI_accStep (s : State) (w : Word) : (s.setI w).accStep = s.accStep := rfl
@[simp] theorem State.setI_accTimer (s : State) (w : Word) : (s.setI w).accTimer = s.accTimer := rfl
@[simp] theorem State.setI_config (s : State) (w : Word) : (s.setI w).config = s.config := rfl
@[simp] theorem State.setI_pins (s : State) (w : Word) : (s.setI w).pins = s.pins := rfl
@[simp] theorem State.setI_pending (s : State) (w : Word) : (s.setI w).pending = s.pending := rfl
@[simp] theorem State.setI_samples (s : State) (w : Word) : (s.setI w).samples = s.samples := rfl
@[simp] theorem State.setI_reg (s : State) (w : Word) (r : RegIx) : (s.setI w).reg r = s.reg r := rfl
@[simp] theorem State.setI_byteAt (s : State) (w : Word) (k : Nat) : (s.setI w).byteAt k = s.byteAt k := rfl

@[simp] theorem State.advancePc_v (s : State) : (s.advancePc).v = s.v := rfl
@[simp] theorem State.advancePc_pc (s : State) : (s.advancePc).pc = s.pc + 2 := rfl
@[simp] theorem State.advancePc_i (s : State) : (s.advancePc).i = s.i := rfl
@[simp] theorem State.advancePc_dt (s : State) : (s.advancePc).dt = s.dt := rfl
@[simp] theorem State.advancePc_st (s : State) : (s.advancePc).st = s.st := rfl
@[simp] theorem State.advancePc_stack (s : State) : (s.advancePc).stack = s.stack := rfl
@[simp] theorem State.advancePc_mode (s : State) : (s.advancePc).mode = s.mode := rfl
@[simp] theorem State.advancePc_mem (s : State) : (s.advancePc).mem = s.mem := rfl
@[simp] theorem State.advancePc_disp (s : State) : (s.advancePc).disp = s.disp := rfl
@[simp] theorem State.advancePc_accStep (s : State) : (s.advancePc).accStep = s.accStep := rfl
@[simp] theorem State.advancePc_accTimer (s : State) : (s.advancePc).accTimer = s.accTimer := rfl
@[simp] theorem State.advancePc_config (s : State) : (s.advancePc).config = s.config := rfl
@[simp] theorem State.advancePc_pins (s : State) : (s.advancePc).pins = s.pins := rfl
@[simp] theorem State.advancePc_pending (s : State) : (s.advancePc).pending = s.pending := rfl
@[simp] theorem State.advancePc_samples (s : State) : (s.advancePc).samples = s.samples := rfl
@[simp] theorem State.advancePc_reg (s : State) (r : RegIx) : (s.advancePc).reg r = s.reg r := rfl
@[simp] theorem State.advancePc_byteAt (s : State) (k : Nat) : (s.advancePc).byteAt k = s.byteAt k := rfl

@[simp] theorem State.raiseAt_v (s : State) (a : Word) (c : Cause) (w : Word) : (s.raiseAt a c w).v = s.v := rfl
@[simp] theorem State.raiseAt_pc (s : State) (a : Word) (c : Cause) (w : Word) : (s.raiseAt a c w).pc = s.pc := rfl
@[simp] theorem State.raiseAt_i (s : State) (a : Word) (c : Cause) (w : Word) : (s.raiseAt a c w).i = s.i := rfl
@[simp] theorem State.raiseAt_dt (s : State) (a : Word) (c : Cause) (w : Word) : (s.raiseAt a c w).dt = s.dt := rfl
@[simp] theorem State.raiseAt_st (s : State) (a : Word) (c : Cause) (w : Word) : (s.raiseAt a c w).st = s.st := rfl
@[simp] theorem State.raiseAt_stack (s : State) (a : Word) (c : Cause) (w : Word) : (s.raiseAt a c w).stack = s.stack := rfl
@[simp] theorem State.raiseAt_mode (s : State) (a : Word) (c : Cause) (w : Word) : (s.raiseAt a c w).mode = .halted ⟨c, w, a⟩ := rfl
@[simp] theorem State.raiseAt_mem (s : State) (a : Word) (c : Cause) (w : Word) : (s.raiseAt a c w).mem = s.mem := rfl
@[simp] theorem State.raiseAt_disp (s : State) (a : Word) (c : Cause) (w : Word) : (s.raiseAt a c w).disp = s.disp := rfl
@[simp] theorem State.raiseAt_accStep (s : State) (a : Word) (c : Cause) (w : Word) : (s.raiseAt a c w).accStep = s.accStep := rfl
@[simp] theorem State.raiseAt_accTimer (s : State) (a : Word) (c : Cause) (w : Word) : (s.raiseAt a c w).accTimer = s.accTimer := rfl
@[simp] theorem State.raiseAt_config (s : State) (a : Word) (c : Cause) (w : Word) : (s.raiseAt a c w).config = s.config := rfl
@[simp] theorem State.raiseAt_pins (s : State) (a : Word) (c : Cause) (w : Word) : (s.raiseAt a c w).pins = s.pins := rfl
@[simp] theorem State.raiseAt_pending (s : State) (a : Word) (c : Cause) (w : Word) : (s.raiseAt a c w).pending = s.pending := rfl
@[simp] theorem State.raiseAt_samples (s : State) (a : Word) (c : Cause) (w : Word) : (s.raiseAt a c w).samples = s.samples := rfl
@[simp] theorem State.raiseAt_reg (s : State) (a : Word) (c : Cause) (w : Word) (r : RegIx) : (s.raiseAt a c w).reg r = s.reg r := rfl
@[simp] theorem State.raiseAt_byteAt (s : State) (a : Word) (c : Cause) (w : Word) (k : Nat) : (s.raiseAt a c w).byteAt k = s.byteAt k := rfl

@[simp] theorem State.raise_v (s : State) (c : Cause) (w : Word) : (s.raise c w).v = s.v := rfl
@[simp] theorem State.raise_pc (s : State) (c : Cause) (w : Word) : (s.raise c w).pc = s.pc := rfl
@[simp] theorem State.raise_i (s : State) (c : Cause) (w : Word) : (s.raise c w).i = s.i := rfl
@[simp] theorem State.raise_dt (s : State) (c : Cause) (w : Word) : (s.raise c w).dt = s.dt := rfl
@[simp] theorem State.raise_st (s : State) (c : Cause) (w : Word) : (s.raise c w).st = s.st := rfl
@[simp] theorem State.raise_stack (s : State) (c : Cause) (w : Word) : (s.raise c w).stack = s.stack := rfl
@[simp] theorem State.raise_mode (s : State) (c : Cause) (w : Word) : (s.raise c w).mode = .halted ⟨c, w, s.pc - 2⟩ := rfl
@[simp] theorem State.raise_mem (s : State) (c : Cause) (w : Word) : (s.raise c w).mem = s.mem := rfl
@[simp] theorem State.raise_disp (s : State) (c : Cause) (w : Word) : (s.raise c w).disp = s.disp := rfl
@[simp] theorem State.raise_accStep (s : State) (c : Cause) (w : Word) : (s.raise c w).accStep = s.accStep := rfl
@[simp] theorem State.raise_accTimer (s : State) (c : Cause) (w : Word) : (s.raise c w).accTimer = s.accTimer := rfl
@[simp] theorem State.raise_config (s : State) (c : Cause) (w : Word) : (s.raise c w).config = s.config := rfl
@[simp] theorem State.raise_pins (s : State) (c : Cause) (w : Word) : (s.raise c w).pins = s.pins := rfl
@[simp] theorem State.raise_pending (s : State) (c : Cause) (w : Word) : (s.raise c w).pending = s.pending := rfl
@[simp] theorem State.raise_samples (s : State) (c : Cause) (w : Word) : (s.raise c w).samples = s.samples := rfl
@[simp] theorem State.raise_reg (s : State) (c : Cause) (w : Word) (r : RegIx) : (s.raise c w).reg r = s.reg r := rfl
@[simp] theorem State.raise_byteAt (s : State) (c : Cause) (w : Word) (k : Nat) : (s.raise c w).byteAt k = s.byteAt k := rfl

@[simp] theorem State.storeBytes_v (s : State) (a : Nat) (bs : List Byte) : (s.storeBytes a bs).v = s.v := rfl
@[simp] theorem State.storeBytes_pc (s : State) (a : Nat) (bs : List Byte) : (s.storeBytes a bs).pc = s.pc := rfl
@[simp] theorem State.storeBytes_i (s : State) (a : Nat) (bs : List Byte) : (s.storeBytes a bs).i = s.i := rfl
@[simp] theorem State.storeBytes_dt (s : State) (a : Nat) (bs : List Byte) : (s.storeBytes a bs).dt = s.dt := rfl
@[simp] theorem State.storeBytes_st (s : State) (a : Nat) (bs : List Byte) : (s.storeBytes a bs).st = s.st := rfl
@[simp] theorem State.storeBytes_stack (s : State) (a : Nat) (bs : List Byte) : (s.storeBytes a bs).stack = s.stack := rfl
@[simp] theorem State.storeBytes_mode (s : State) (a : Nat) (bs : List Byte) : (s.storeBytes a bs).mode = s.mode := rfl
@[simp] theorem State.storeBytes_mem (s : State) (a : Nat) (bs : List Byte) : (s.storeBytes a bs).mem = Memory.writeBytes s.config.font s.mem a bs := rfl
@[simp] theorem State.storeBytes_disp (s : State) (a : Nat) (bs : List Byte) : (s.storeBytes a bs).disp = s.disp := rfl
@[simp] theorem State.storeBytes_accStep (s : State) (a : Nat) (bs : List Byte) : (s.storeBytes a bs).accStep = s.accStep := rfl
@[simp] theorem State.storeBytes_accTimer (s : State) (a : Nat) (bs : List Byte) : (s.storeBytes a bs).accTimer = s.accTimer := rfl
@[simp] theorem State.storeBytes_config (s : State) (a : Nat) (bs : List Byte) : (s.storeBytes a bs).config = s.config := rfl
@[simp] theorem State.storeBytes_pins (s : State) (a : Nat) (bs : List Byte) : (s.storeBytes a bs).pins = s.pins := rfl
@[simp] theorem State.storeBytes_pending (s : State) (a : Nat) (bs : List Byte) : (s.storeBytes a bs).pending = s.pending := rfl
@[simp] theorem State.storeBytes_samples (s : State) (a : Nat) (bs : List Byte) : (s.storeBytes a bs).samples = s.samples := rfl
@[simp] theorem State.storeBytes_reg (s : State) (a : Nat) (bs : List Byte) (r : RegIx) : (s.storeBytes a bs).reg r = s.reg r := rfl

@[simp] theorem State.sample_v (s : State) : (s.sample).v = s.v := rfl
@[simp] theorem State.sample_pc (s : State) : (s.sample).pc = s.pc := rfl
@[simp] theorem State.sample_i (s : State) : (s.sample).i = s.i := rfl
@[simp] theorem State.sample_dt (s : State) : (s.sample).dt = s.dt := rfl
@[simp] theorem State.sample_st (s : State) : (s.sample).st = s.st := rfl
@[simp] theorem State.sample_stack (s : State) : (s.sample).stack = s.stack := rfl
@[simp] theorem State.sample_mode (s : State) : (s.sample).mode = s.mode := rfl
@[simp] theorem State.sample_mem (s : State) : (s.sample).mem = s.mem := rfl
@[simp] theorem State.sample_disp (s : State) : (s.sample).disp = s.disp := rfl
@[simp] theorem State.sample_accStep (s : State) : (s.sample).accStep = s.accStep := rfl
@[simp] theorem State.sample_accTimer (s : State) : (s.sample).accTimer = s.accTimer := rfl
@[simp] theorem State.sample_config (s : State) : (s.sample).config = s.config := rfl
@[simp] theorem State.sample_pins (s : State) : (s.sample).pins = s.nextPins := rfl
@[simp] theorem State.sample_pending (s : State) : (s.sample).pending = s.pending.tail := rfl
@[simp] theorem State.sample_samples (s : State) : (s.sample).samples = s.samples + 1 := rfl
@[simp] theorem State.sample_reg (s : State) (r : RegIx) : (s.sample).reg r = s.reg r := rfl
@[simp] theorem State.sample_byteAt (s : State) (k : Nat) : (s.sample).byteAt k = s.byteAt k := rfl

@[simp] theorem State.setAccStep_v (s : State) (q : Rat) : (s.setAccStep q).v = s.v := rfl
@[simp] theorem State.setAccStep_pc (s : State) (q : Rat) : (s.setAccStep q).pc = s.pc := rfl
@[simp] theorem State.setAccStep_i (s : State) (q : Rat) : (s.setAccStep q).i = s.i := rfl
@[simp] theorem State.setAccStep_dt (s : State) (q : Rat) : (s.setAccStep q).dt = s.dt := rfl
@[simp] theorem State.setAccStep_st (s : State) (q : Rat) : (s.setAccStep q).st = s.st := rfl
@[simp] theorem State.setAccStep_stack (s : State) (q : Rat) : (s.setAccStep q).stack = s.stack := rfl
@[simp] theorem State.setAccStep_mode (s : State) (q : Rat) : (s.setAccStep q).mode = s.mode := rfl
@[simp] theorem State.setAccStep_mem (s : State) (q : Rat) : (s.setAccStep q).mem = s.mem := rfl
@[simp] theorem State.setAccStep_disp (s : State) (q : Rat) : (s.setAccStep q).disp = s.disp := rfl
@[simp] theorem State.setAccStep_accStep (s : State) (q : Rat) : (s.setAccStep q).accStep = s.config.accArith.round q := rfl
@[simp] theorem State.setAccStep_accTimer (s : State) (q : Rat) : (s.setAccStep q).accTimer = s.accTimer := rfl
@[simp] theorem State.setAccStep_config (s : State) (q : Rat) : (s.setAccStep q).config = s.config := rfl
@[simp] theorem State.setAccStep_pins (s : State) (q : Rat) : (s.setAccStep q).pins = s.pins := rfl
@[simp] theorem State.setAccStep_pending (s : State) (q : Rat) : (s.setAccStep q).pending = s.pending := rfl
@[simp] theorem State.setAccStep_samples (s : State) (q : Rat) : (s.setAccStep q).samples = s.samples := rfl
@[simp] theorem State.setAccStep_reg (s : State) (q : Rat) (r : RegIx) : (s.setAccStep q).reg r = s.reg r := rfl
@[simp] theorem State.setAccStep_byteAt (s : State) (q : Rat) (k : Nat) : (s.setAccStep q).byteAt k = s.byteAt k := rfl

@[simp] theorem State.setAccTimer_v (s : State) (q : Rat) : (s.setAccTimer q).v = s.v := rfl
@[simp] theorem State.setAccTimer_pc (s : State) (q : Rat) : (s.setAccTimer q).pc = s.pc := rfl
@[simp] theorem State.setAccTimer_i (s : State) (q : Rat) : (s.setAccTimer q).i = s.i := rfl
@[simp] theorem State.setAccTimer_dt (s : State) (q : Rat) : (s.setAccTimer q).dt = s.dt := rfl
@[simp] theorem State.setAccTimer_st (s : State) (q : Rat) : (s.setAccTimer q).st = s.st := rfl
@[simp] theorem State.setAccTimer_stack (s : State) (q : Rat) : (s.setAccTimer q).stack = s.stack := rfl
@[simp] theorem State.setAccTimer_mode (s : State) (q : Rat) : (s.setAccTimer q).mode = s.mode := rfl
@[simp] theorem State.setAccTimer_mem (s : State) (q : Rat) : (s.setAccTimer q).mem = s.mem := rfl
@[simp] theorem State.setAccTimer_disp (s : State) (q : Rat) : (s.setAccTimer q).disp = s.disp := rfl
@[simp] theorem State.setAccTimer_accStep (s : State) (q : Rat) : (s.setAccTimer q).accStep = s.accStep := rfl
@[simp] theorem State.setAccTimer_accTimer (s : State) (q : Rat) : (s.setAccTimer q).accTimer = s.config.accArith.round q := rfl
@[simp] theorem State.setAccTimer_config (s : State) (q : Rat) : (s.setAccTimer q).config = s.config := rfl
@[simp] theorem State.setAccTimer_pins (s : State) (q : Rat) : (s.setAccTimer q).pins = s.pins := rfl
@[simp] theorem State.setAccTimer_pending (s : State) (q : Rat) : (s.setAccTimer q).pending = s.pending := rfl
@[simp] theorem State.setAccTimer_samples (s : State) (q : Rat) : (s.setAccTimer q).samples = s.samples := rfl
@[simp] theorem State.setAccTimer_reg (s : State) (q : Rat) (r : RegIx) : (s.setAccTimer q).reg r = s.reg r := rfl
@[simp] theorem State.setAccTimer_byteAt (s : State) (q : Rat) (k : Nat) : (s.setAccTimer q).byteAt k = s.byteAt k := rfl

end Sys2Proof.Machine
end

