-- ==== Sys2Proof/Laws/Ops.lean ====
section
/-! SUPPORT. One lemma for each shared operation that says everything it can do. -/

namespace Sys2Proof.Machine

/-! Registers. -/

theorem State.reg_setReg (s : State) (x r : RegIx) (b : Byte) : (s.setReg x b).reg r = if r = x then b else s.reg r := by
  unfold State.reg State.setReg
  rw [Vector.getElem_set]
  by_cases h : r = x
  · subst h
    simp
  · rw [if_neg fun e => h (BitVec.eq_of_toNat_eq e.symm), if_neg h]

@[simp] theorem State.reg_setReg_same (s : State) (x : RegIx) (b : Byte) : (s.setReg x b).reg x = b := by
  rw [State.reg_setReg, if_pos rfl]

theorem State.reg_setReg_ne (s : State) {x r : RegIx} (b : Byte) (h : r ≠ x) : (s.setReg x b).reg r = s.reg r := by
  rw [State.reg_setReg, if_neg h]

theorem State.reg_setVF (s : State) (r : RegIx) (f : Byte) : (s.setVF f).reg r = if r = 15 then f else s.reg r :=
  State.reg_setReg s 15 r f

/-- Two states that agree outside the registers and in every register are equal. -/
theorem State.v_ext {v w : Vector Byte 16} (h : ∀ r : RegIx, v[r.toNat]'r.isLt = w[r.toNat]'r.isLt) : v = w := by
  refine Vector.ext fun k hk => ?_
  have := h (BitVec.ofNat 4 k)
  simpa [Nat.mod_eq_of_lt hk] using this

/-! The block of registers of a bulk transfer. -/

theorem State.regBlock_length (s : State) (x : RegIx) : (s.regBlock x).length = x.toNat + 1 := by
  simp [State.regBlock]

theorem State.regBlock_get (s : State) (x : RegIx) {k : Nat} (h : k < x.toNat + 1) :
    (s.regBlock x)[k]? = some (s.reg (BitVec.ofNat 4 k)) := by
  simp [State.regBlock, h]

/-- What a register holds after a block load: the loaded byte inside the block, the old value outside. -/
theorem State.reg_setRegBlock (s : State) {k : Nat} {bs : List Byte} (hk : k + bs.length ≤ 16) (r : RegIx) :
    (s.setRegBlock k bs).reg r = if k ≤ r.toNat then (bs[r.toNat - k]?).getD (s.reg r) else s.reg r := by
  induction bs generalizing s k with
  | nil => simp [State.setRegBlock]
  | cons b bs ih =>
    rw [List.length_cons] at hk
    rw [State.setRegBlock, ih _ (by omega), State.reg_setReg]
    have he : r = BitVec.ofNat 4 k ↔ r.toNat = k := by
      rw [← BitVec.toNat_inj, BitVec.toNat_ofNat, Nat.mod_eq_of_lt (by omega)]
    rcases lt_trichotomy r.toNat k with h | h | h
    · have h1 : ¬ k + 1 ≤ r.toNat := by omega
      have h2 : ¬ k ≤ r.toNat := by omega
      simp [h1, h2, he, h.ne]
    · have h1 : ¬ k + 1 ≤ r.toNat := by omega
      simp [he, h]
    · have h1 : k + 1 ≤ r.toNat := by omega
      have h2 : k ≤ r.toNat := by omega
      simp [h1, h2, he, h.ne', show r.toNat - k = (r.toNat - (k + 1)) + 1 by omega]

/-- A block load writes registers only. -/
theorem State.setRegBlock_eq (s : State) (k : Nat) (bs : List Byte) :
    s.setRegBlock k bs = { s with v := (s.setRegBlock k bs).v } := by
  induction bs generalizing s k with
  | nil => rfl
  | cons b bs ih =>
    rw [State.setRegBlock, ih]
    rfl

/-! Memory accesses. -/

theorem State.loadBytes_length (s : State) (base len : Nat) : (s.loadBytes base len).length = len := by
  simp [State.loadBytes]

theorem State.loadBytes_get (s : State) (base : Nat) {len k : Nat} (h : k < len) :
    (s.loadBytes base len)[k]? = some (s.byteAt (base + k)) := by
  simp [State.loadBytes, h]

/-- What memory holds after a store: the stored bytes inside the span, the old ones outside. -/
theorem State.byteAt_storeBytes (s : State) {a : Nat} {bs : List Byte} (ha : a + bs.length ≤ Config.memSize) (k : Nat) :
    (s.storeBytes a bs).byteAt k = if a ≤ k then (bs[k - a]?).getD (s.byteAt k) else s.byteAt k :=
  Memory.read_writeBytes s.mem ha k

theorem State.byteAt_storeBytes_outside (s : State) {a : Nat} {bs : List Byte} {k : Nat} (hk : k < a ∨ a + bs.length ≤ k) :
    (s.storeBytes a bs).byteAt k = s.byteAt k :=
  Memory.read_writeBytes_outside s.mem hk

/-- The range check: the lowest address out of range, exactly when the access is not empty and does not fit. -/
theorem spanFault_eq (base len : Nat) :
    spanFault base len = if 0 < len ∧ Config.memSize < base + len then some (max base 4096) else none := by
  unfold spanFault
  split <;> split <;> first | rfl | (simp only [Config.memSize] at *; omega)

theorem spanFault_eq_none {base len : Nat} : spanFault base len = none ↔ len = 0 ∨ base + len ≤ Config.memSize := by
  rw [spanFault_eq]
  split
  · simp
    omega
  · simp
    omega

/-- The fetch: both bytes in range, or the first address that is not. -/
theorem State.fetch_eq (s : State) :
    s.fetch = if s.pc.toNat + 1 < Config.memSize then .ok (opcodeOf (s.byteAt s.pc.toNat) (s.byteAt (s.pc.toNat + 1)))
      else .error (max s.pc.toNat 4096) := by
  unfold State.fetch State.memRead
  by_cases h : s.pc.toNat < 4096
  · by_cases h' : s.pc.toNat + 1 < 4096
    · simp [h, h']
    · simp [h, h']
      omega
  · simp [h, show ¬ s.pc.toNat + 1 < 4096 by omega]
    omega

/-! The call stack. -/

/-- A push: StackOverflow on a full stack, else the value on top and nothing else. -/
theorem State.push_eq (s : State) (w : Word) :
    s.push w = if s.config.stackDepth = some s.stack.length then .error (.stackOverflow, w)
      else .ok { s with stack := s.stack ++ [w] } := rfl

theorem State.pop_nil (s : State) (h : s.stack = []) : s.pop = .error (.stackUnderflow, 0) := by
  simp [State.pop, h]

/-- A pop takes the last element. -/
theorem State.pop_append (s : State) (ws : List Word) (w : Word) (h : s.stack = ws ++ [w]) :
    s.pop = .ok (w, { s with stack := ws }) := by
  simp [State.pop, h]

/-! Skips, keys and timers. -/

theorem State.skipIf_eq (s : State) (c : Bool) : s.skipIf c = { s with pc := if c then s.pc + 2 else s.pc } := by
  cases c <;> rfl

/-- No key held: the poll changes nothing. -/
theorem State.poll_none (s : State) (t : RegIx) (h : ∀ k < 16, s.keyHeld k = false) : s.poll t = s := by
  have : s.firstKey = none := by
    simp only [State.firstKey, List.find?_eq_none, List.mem_range]
    intro k hk
    simp [h k hk]
  simp [State.poll, this]

/-- The least held key ends the wait. -/
theorem State.poll_some (s : State) (t : RegIx) {k : Nat} (hk : k < 16) (h : s.keyHeld k = true)
    (hmin : ∀ j < k, s.keyHeld j = false) : s.poll t = { s.setReg t (BitVec.ofNat 8 k) with mode := .running } := by
  have : s.firstKey = some k := by
    simp only [State.firstKey, List.find?_range_eq_some]
    exact ⟨h, by simpa using hk, fun j hj => by simp [hmin j hj]⟩
  simp [State.poll, this]

theorem countDown_toNat (b : Byte) : (countDown b).toNat = b.toNat - 1 := by
  unfold countDown
  split
  · subst b
    rfl
  · have : b.toNat ≠ 0 := fun h => ‹¬ b = 0› (BitVec.eq_of_toNat_eq h)
    have hb := b.isLt
    rw [BitVec.toNat_sub]
    simp
    omega

/-! The frame. -/

/-- Nothing is changed by doing nothing. -/
theorem Frame.refl (w : Writes) (s : State) : Frame w s s :=
  ⟨fun _ _ => rfl, fun _ => rfl, fun _ => rfl, fun _ => rfl, fun _ => rfl, fun _ => rfl, fun _ => rfl, fun _ _ _ => rfl,
    fun _ _ => rfl, rfl, rfl, rfl, rfl, rfl, rfl⟩

theorem mem_span {base len a : Nat} : a ∈ span base len ↔ base ≤ a ∧ a < base + len := by
  simp only [span, List.mem_map, List.mem_range]
  constructor
  · rintro ⟨k, hk, rfl⟩
    omega
  · exact fun h => ⟨a - base, by omega, by omega⟩

theorem mem_regsUpTo {x r : RegIx} : r ∈ regsUpTo x ↔ r.toNat ≤ x.toNat := by
  simp only [regsUpTo, List.mem_map, List.mem_range]
  constructor
  · rintro ⟨k, hk, rfl⟩
    rw [BitVec.toNat_ofNat]
    exact (Nat.mod_le _ _).trans (by omega)
  · exact fun h => ⟨r.toNat, by omega, by simp⟩

end Sys2Proof.Machine
end

