-- ==== Sys2Proof/Laws/PerInstr.lean ====
section
/-! SUPPORT. Per instruction: its word lies in its own row of the opcode map (spec/30_encoding.md R95). -/

namespace Sys2Proof.Laws.RowMatch

open Sys2Proof

/-- The row of an instruction selects the instruction's word: `op AND mask = match` (R95). -/
def Statement (i : Instr) : Prop := (rowOf i).selects (encode i) = true

theorem cls (ign : Nibble) : Statement (.cls ign) :=
  beq_iff_eq.mpr (packXKk_mask_low ..)

theorem ret (ign : Nibble) : Statement (.ret ign) :=
  beq_iff_eq.mpr (packXKk_mask_low ..)

theorem jp (nnn : Addr) : Statement (.jp nnn) :=
  beq_iff_eq.mpr (packNnn_mask ..)

theorem call (nnn : Addr) : Statement (.call nnn) :=
  beq_iff_eq.mpr (packNnn_mask ..)

theorem seImm (x : RegIx) (kk : Byte) : Statement (.seImm x kk) :=
  beq_iff_eq.mpr (packXKk_mask ..)

theorem sneImm (x : RegIx) (kk : Byte) : Statement (.sneImm x kk) :=
  beq_iff_eq.mpr (packXKk_mask ..)

theorem seReg (x y : RegIx) (ign : Nibble) : Statement (.seReg x y ign) :=
  beq_iff_eq.mpr (packXYN_mask ..)

theorem ldImm (x : RegIx) (kk : Byte) : Statement (.ldImm x kk) :=
  beq_iff_eq.mpr (packXKk_mask ..)

theorem addImm (x : RegIx) (kk : Byte) : Statement (.addImm x kk) :=
  beq_iff_eq.mpr (packXKk_mask ..)

theorem ldReg (x y : RegIx) : Statement (.ldReg x y) :=
  beq_iff_eq.mpr (packXYN_mask_low ..)

theorem orReg (x y : RegIx) : Statement (.orReg x y) :=
  beq_iff_eq.mpr (packXYN_mask_low ..)

theorem andReg (x y : RegIx) : Statement (.andReg x y) :=
  beq_iff_eq.mpr (packXYN_mask_low ..)

theorem xorReg (x y : RegIx) : Statement (.xorReg x y) :=
  beq_iff_eq.mpr (packXYN_mask_low ..)

theorem addReg (x y : RegIx) : Statement (.addReg x y) :=
  beq_iff_eq.mpr (packXYN_mask_low ..)

theorem sub (x y : RegIx) : Statement (.sub x y) :=
  beq_iff_eq.mpr (packXYN_mask_low ..)

theorem shr (x : RegIx) (ign : Nibble) : Statement (.shr x ign) :=
  beq_iff_eq.mpr (packXYN_mask_low ..)

theorem subn (x y : RegIx) : Statement (.subn x y) :=
  beq_iff_eq.mpr (packXYN_mask_low ..)

theorem shl (x : RegIx) (ign : Nibble) : Statement (.shl x ign) :=
  beq_iff_eq.mpr (packXYN_mask_low ..)

theorem sneReg (x y : RegIx) (ign : Nibble) : Statement (.sneReg x y ign) :=
  beq_iff_eq.mpr (packXYN_mask ..)

theorem ldI (nnn : Addr) : Statement (.ldI nnn) :=
  beq_iff_eq.mpr (packNnn_mask ..)

theorem jpV0 (nnn : Addr) : Statement (.jpV0 nnn) :=
  beq_iff_eq.mpr (packNnn_mask ..)

theorem rnd (x : RegIx) (kk : Byte) : Statement (.rnd x kk) :=
  beq_iff_eq.mpr (packXKk_mask ..)

theorem drw (x y : RegIx) (n : Nibble) : Statement (.drw x y n) :=
  beq_iff_eq.mpr (packXYN_mask ..)

theorem skp (x : RegIx) : Statement (.skp x) :=
  beq_iff_eq.mpr (packXKk_mask_low ..)

theorem sknp (x : RegIx) : Statement (.sknp x) :=
  beq_iff_eq.mpr (packXKk_mask_low ..)

theorem ldVxDT (x : RegIx) : Statement (.ldVxDT x) :=
  beq_iff_eq.mpr (packXKk_mask_low ..)

theorem ldVxK (x : RegIx) : Statement (.ldVxK x) :=
  beq_iff_eq.mpr (packXKk_mask_low ..)

theorem ldDTVx (x : RegIx) : Statement (.ldDTVx x) :=
  beq_iff_eq.mpr (packXKk_mask_low ..)

theorem ldSTVx (x : RegIx) : Statement (.ldSTVx x) :=
  beq_iff_eq.mpr (packXKk_mask_low ..)

theorem addI (x : RegIx) : Statement (.addI x) :=
  beq_iff_eq.mpr (packXKk_mask_low ..)

theorem ldF (x : RegIx) : Statement (.ldF x) :=
  beq_iff_eq.mpr (packXKk_mask_low ..)

theorem ldB (x : RegIx) : Statement (.ldB x) :=
  beq_iff_eq.mpr (packXKk_mask_low ..)

theorem storeRegs (x : RegIx) : Statement (.storeRegs x) :=
  beq_iff_eq.mpr (packXKk_mask_low ..)

theorem loadRegs (x : RegIx) : Statement (.loadRegs x) :=
  beq_iff_eq.mpr (packXKk_mask_low ..)

end Sys2Proof.Laws.RowMatch
end

