-- ==== Sys2Proof/Laws/Step.lean ====
section
/-! SUPPORT. What a Step does, mode by mode and stage by stage: cited instead of unfolding `step`. -/

namespace Sys2Proof.Machine

variable {s : State}

theorem step_halted {r : HaltRecord} (h : s.mode = .halted r) : step s = .next s := by
  simp [step, State.cycle, h]

theorem step_waitKey {t : RegIx} (h : s.mode = .waitKey t) : step s = .next (s.sample.poll t) := by
  simp [step, State.cycle, h]

theorem step_running (h : s.mode = .running) : step s = s.sample.runOne := by
  simp [step, State.cycle, h]

@[simp] theorem State.sample_fetch : s.sample.fetch = s.fetch := rfl

theorem State.fetch_ok (h : s.pc.toNat ≤ 0xFFE) :
    s.fetch = .ok (opcodeOf (s.byteAt s.pc.toNat) (s.byteAt (s.pc.toNat + 1))) := by
  rw [State.fetch_eq, if_pos (show s.pc.toNat + 1 < 4096 by omega)]

theorem State.fetch_error (h : 0xFFE < s.pc.toNat) : s.fetch = .error (max s.pc.toNat 4096) := by
  rw [State.fetch_eq, if_neg (show ¬ s.pc.toNat + 1 < 4096 by omega)]

/-- A fetch that fails: the halt, PC not advanced. -/
theorem State.runOne_error {a : Nat} (h : s.fetch = .error a) :
    s.runOne = .next (s.raiseAt s.pc .outOfRangeAddress (BitVec.ofNat 16 a)) := by
  simp [State.runOne, h]

/-- An opcode that decodes to nothing: the halt, PC advanced. -/
theorem State.runOne_unknown {op : Word} (h : s.fetch = .ok op) (hd : decode op = none) :
    s.runOne = .next (s.advancePc.raise .unknownOpcode op) := by
  simp [State.runOne, h, hd]

/-- An opcode that decodes: its instruction runs with PC advanced. -/
theorem State.runOne_decoded {op : Word} {i : Instr} (h : s.fetch = .ok op) (hd : decode op = some i) :
    s.runOne = exec i s.advancePc := by
  simp [State.runOne, h, hd]

theorem step_error (hm : s.mode = .running) (h : 0xFFE < s.pc.toNat) :
    step s = .next (s.sample.raiseAt s.pc .outOfRangeAddress (BitVec.ofNat 16 (max s.pc.toNat 4096))) :=
  (step_running hm).trans (State.runOne_error (s := s.sample) (State.fetch_error h))

theorem step_unknown {op : Word} (hm : s.mode = .running) (h : s.fetch = .ok op) (hd : decode op = none) :
    step s = .next (s.sample.advancePc.raise .unknownOpcode op) :=
  (step_running hm).trans (State.runOne_unknown (s := s.sample) h hd)

theorem step_decoded {op : Word} {i : Instr} (hm : s.mode = .running) (h : s.fetch = .ok op) (hd : decode op = some i) :
    step s = exec i s.sample.advancePc :=
  (step_running hm).trans (State.runOne_decoded (s := s.sample) h hd)

/-- What a Step is: nothing, a poll, or one of the three ends of a fetch and decode. -/
theorem step_cases (s : State) :
    (∃ r, s.mode = .halted r ∧ step s = .next s) ∨
    (∃ t, s.mode = .waitKey t ∧ step s = .next (s.sample.poll t)) ∨
    (s.mode = .running ∧ 0xFFE < s.pc.toNat ∧
      step s = .next (s.sample.raiseAt s.pc .outOfRangeAddress (BitVec.ofNat 16 (max s.pc.toNat 4096)))) ∨
    (s.mode = .running ∧ s.pc.toNat ≤ 0xFFE ∧ ∃ op, s.fetch = .ok op ∧ decode op = none ∧
      step s = .next (s.sample.advancePc.raise .unknownOpcode op)) ∨
    (s.mode = .running ∧ s.pc.toNat ≤ 0xFFE ∧ ∃ op i, s.fetch = .ok op ∧ decode op = some i ∧
      step s = exec i s.sample.advancePc) := by
  cases hm : s.mode with
  | halted r => exact .inl ⟨r, rfl, step_halted hm⟩
  | waitKey t => exact .inr (.inl ⟨t, rfl, step_waitKey hm⟩)
  | running =>
    refine .inr (.inr ?_)
    rcases Nat.lt_or_ge 0xFFE s.pc.toNat with h | h
    · exact .inl ⟨rfl, h, step_error hm h⟩
    · refine .inr ?_
      have hf := State.fetch_ok h
      cases hd : decode (opcodeOf (s.byteAt s.pc.toNat) (s.byteAt (s.pc.toNat + 1))) with
      | none => exact .inl ⟨rfl, h, _, hf, hd, step_unknown hm hf hd⟩
      | some i => exact .inr ⟨rfl, h, _, i, hf, hd, step_decoded hm hf hd⟩

/-! The end of a run. -/

theorem finished_halted {r : HaltRecord} (h : s.mode = .halted r) : s.finished = true := by
  simp [State.finished, h]

theorem finished_waitKey {t : RegIx} (h : s.mode = .waitKey t) : s.finished = false := by
  simp [State.finished, h]

/-- In Running a run has ended exactly when the fetched word is a jump to PC. -/
theorem finished_running (h : s.mode = .running) :
    s.finished = true ↔ ∃ op nnn, s.fetch = .ok op ∧ decode op = some (.jp nnn) ∧ addrOperand nnn = s.pc := by
  simp only [State.finished, h]
  constructor
  · intro hf
    split at hf
    · cases hf
    · split at hf
      · exact ⟨_, _, ‹_›, ‹_›, by simpa using hf⟩
      · cases hf
  · rintro ⟨op, nnn, hf, hd, hp⟩
    simp [hf, hd, hp]

/-- A jump to itself changes nothing but the sample. -/
theorem step_finished (h : s.mode = .running) (hf : s.finished = true) : step s = .next s.sample := by
  obtain ⟨op, nnn, ho, hd, hp⟩ := (finished_running h).mp hf
  rw [step_decoded h ho hd]
  simp only [exec, execJp, State.setPc, State.advancePc, State.sample, hp]

end Sys2Proof.Machine
end

