-- ==== Sys2Proof/Tests/Slice0.lean ====
section
/-! SUPPORT. Tests of the model: well-formedness, decoding of words written out from the spec's encodings, one Step each of the
vectors of spec/95_test_vectors.md (named T-… in the comments; the expected values are that file's), the scheduler vectors, and a
witness of the hypotheses of every statement that has any. -/

namespace Sys2Proof.Tests

open Sys2Proof Sys2Proof.Machine

/-! Helpers: small states built from the reset state. -/

/-- Registers set one after the other. -/
def regs (l : List (RegIx × Byte)) (s : State) : State := l.foldl (fun s p => s.setReg p.1 p.2) s

/-- One Step with a word placed at PC. -/
def run1 (w : Nat) (s : State) : Option State :=
  match step (s.withFetchWord 16 w) with
  | .next t => some t
  | _ => none

/-- What an outcome's next state is; the given state otherwise. -/
def nextOr (s : State) : Result → State
  | .next t => t
  | _ => s

/-- The outcome is a next state. -/
def answers : Result → Bool
  | .next _ => true
  | _ => false

theorem next_of_answers {o : Result} (h : answers o = true) : ∃ t, o = .next t := by
  cases o with
  | next t => exact ⟨t, rfl⟩
  | fault r => cases h
  | refused r => cases h

/-- The lit pixels, row by row. -/
def lit (d : Display) : List (Nat × Nat) :=
  (List.finRange 32).flatMap fun r => ((List.finRange 64).filter fun c => d.pixel r c).map fun c => (r.val, c.val)

/-- A display with one pixel set. -/
def onePixel (r : Fin 32) (c : Fin 64) : Display := Display.clear.toggle r c

/-! Well-formedness: the six checks, each refusing a term, and terms that pass. -/

theorem test_wf_cls : WellFormed (.cls 0xA) = false ∧ WellFormed (.cls 0) = true := by decide
theorem test_wf_ret : WellFormed (.ret 1) = false ∧ WellFormed (.ret 0) = true := by decide
theorem test_wf_seReg : WellFormed (.seReg 1 2 0xF) = false ∧ WellFormed (.seReg 1 2 0) = true := by decide
theorem test_wf_sneReg : WellFormed (.sneReg 1 2 1) = false ∧ WellFormed (.sneReg 1 2 0) = true := by decide
theorem test_wf_shr : WellFormed (.shr 4 0xA) = false ∧ WellFormed (.shr 4 0) = true := by decide
theorem test_wf_shl : WellFormed (.shl 4 0xA) = false ∧ WellFormed (.shl 4 0) = true := by decide
theorem test_wf_rest : WellFormed (.drw 1 2 0xF) = true ∧ WellFormed (.jp 0xFFF) = true ∧ WellFormed (.loadRegs 0xF) = true := by
  decide

/-! Decoding: the word of every constructor, written out bit by bit from R92 and R95 (nibbles from the most significant). -/

theorem test_decode_cls : decode 0b0000_0000_1110_0000 = some (.cls 0) := by decide
theorem test_decode_ret : decode 0b0000_0000_1110_1110 = some (.ret 0) := by decide
theorem test_decode_jp : decode 0b0001_0010_0011_0100 = some (.jp 0x234) := by decide
theorem test_decode_call : decode 0b0010_0010_0001_0000 = some (.call 0x210) := by decide
theorem test_decode_seImm : decode 0b0011_0011_0010_1010 = some (.seImm 3 0x2A) := by decide
theorem test_decode_sneImm : decode 0b0100_0011_0010_1010 = some (.sneImm 3 0x2A) := by decide
theorem test_decode_seReg : decode 0b0101_0001_0010_0000 = some (.seReg 1 2 0) := by decide
theorem test_decode_ldImm : decode 0b0110_1010_0010_1111 = some (.ldImm 0xA 0x2F) := by decide
theorem test_decode_addImm : decode 0b0111_0000_0000_0010 = some (.addImm 0 2) := by decide
theorem test_decode_ldReg : decode 0b1000_0001_0010_0000 = some (.ldReg 1 2) := by decide
theorem test_decode_orReg : decode 0b1000_0001_0010_0001 = some (.orReg 1 2) := by decide
theorem test_decode_andReg : decode 0b1000_0001_0010_0010 = some (.andReg 1 2) := by decide
theorem test_decode_xorReg : decode 0b1000_0001_0010_0011 = some (.xorReg 1 2) := by decide
theorem test_decode_addReg : decode 0b1000_0001_0010_0100 = some (.addReg 1 2) := by decide
theorem test_decode_sub : decode 0b1000_0001_0010_0101 = some (.sub 1 2) := by decide
theorem test_decode_shr : decode 0b1000_0100_1010_0110 = some (.shr 4 0xA) := by decide
theorem test_decode_subn : decode 0b1000_0001_0010_0111 = some (.subn 1 2) := by decide
theorem test_decode_shl : decode 0b1000_0100_1010_1110 = some (.shl 4 0xA) := by decide
theorem test_decode_sneReg : decode 0b1001_0001_0010_0000 = some (.sneReg 1 2 0) := by decide
theorem test_decode_ldI : decode 0b1010_0011_0000_0000 = some (.ldI 0x300) := by decide
theorem test_decode_jpV0 : decode 0b1011_0011_0000_0000 = some (.jpV0 0x300) := by decide
theorem test_decode_rnd : decode 0b1100_0011_0000_1111 = some (.rnd 3 0x0F) := by decide
theorem test_decode_drw : decode 0b1101_0001_0010_0101 = some (.drw 1 2 5) := by decide
theorem test_decode_skp : decode 0b1110_0010_1001_1110 = some (.skp 2) := by decide
theorem test_decode_sknp : decode 0b1110_0010_1010_0001 = some (.sknp 2) := by decide
theorem test_decode_ldVxDT : decode 0b1111_0101_0000_0111 = some (.ldVxDT 5) := by decide
theorem test_decode_ldVxK : decode 0b1111_0011_0000_1010 = some (.ldVxK 3) := by decide
theorem test_decode_ldDTVx : decode 0b1111_0101_0001_0101 = some (.ldDTVx 5) := by decide
theorem test_decode_ldSTVx : decode 0b1111_0101_0001_1000 = some (.ldSTVx 5) := by decide
theorem test_decode_addI : decode 0b1111_0001_0001_1110 = some (.addI 1) := by decide
theorem test_decode_ldF : decode 0b1111_0000_0010_1001 = some (.ldF 0) := by decide
theorem test_decode_ldB : decode 0b1111_0000_0011_0011 = some (.ldB 0) := by decide
theorem test_decode_storeRegs : decode 0b1111_0010_0101_0101 = some (.storeRegs 2) := by decide
theorem test_decode_loadRegs : decode 0b1111_0001_0110_0101 = some (.loadRegs 1) := by decide

/-- R97's examples of the four families, and the truncated string. -/
theorem test_decode_refuses : decode 0x0123 = none ∧ decode 0x0000 = none ∧ decode 0x800F = none ∧ decode 0xE09F = none ∧
    decode 0xF1FF = none ∧ decodeBytes [0x6A] = .error .truncated := by decide

/-- Big-endian (R64): the byte at the lower address is the high one. -/
theorem test_decode_bytes : decodeBytes [0x6A, 0x2F, 0x12] = .ok (.ldImm 0xA 0x2F, [0x12]) := by decide

/-! Control transfer (T-C). -/

/-- T-C1. -/
theorem test_ret : (run1 0x00EE { State.reset with pc := 0x212, stack := [0x206] }).map (fun t => (t.pc, t.stack)) =
    some (0x206, []) := by decide
/-- T-C2. -/
theorem test_ret_underflow : (run1 0x00EE State.reset).map (fun t => (t.mode, t.pc)) =
    some (.halted ⟨.stackUnderflow, 0, 0x200⟩, 0x202) := by decide
/-- T-C3. -/
theorem test_jp : (run1 0x1234 State.reset).map State.pc = some 0x234 := by decide
/-- T-C6. -/
theorem test_call : (run1 0x2300 { State.reset with pc := 0xFFE }).map (fun t => (t.pc, t.stack)) =
    some (0x300, [0x1000]) := by decide
/-- T-C7. -/
theorem test_call_overflow : (run1 0x2300 { State.reset with
      stack := [0x202, 0x204], config := { Config.default with stackDepth := some 2 } }).map (fun t => (t.mode, t.pc, t.stack)) =
    some (.halted ⟨.stackOverflow, 0x202, 0x200⟩, 0x202, [0x202, 0x204]) := by decide
/-- T-C8, T-C9. -/
theorem test_seImm : (run1 0x332A (regs [(3, 0x2A)] State.reset)).map State.pc = some 0x204 ∧
    (run1 0x332A (regs [(3, 0x2B)] State.reset)).map State.pc = some 0x202 := by decide
/-- T-C10, T-C11. -/
theorem test_sneImm : (run1 0x432A (regs [(3, 0x2A)] State.reset)).map State.pc = some 0x202 ∧
    (run1 0x432A State.reset).map State.pc = some 0x204 := by decide
/-- T-C12. -/
theorem test_seReg : (run1 0x512F (regs [(1, 7), (2, 7)] { State.reset with pc := 0x300 })).map State.pc = some 0x304 ∧
    (run1 0x5120 (regs [(1, 7), (2, 8)] { State.reset with pc := 0x300 })).map State.pc = some 0x302 := by decide
/-- T-C13. -/
theorem test_sneReg : (run1 0x9120 (regs [(1, 7), (2, 8)] { State.reset with pc := 0x300 })).map State.pc = some 0x304 ∧
    (run1 0x9120 (regs [(1, 7), (2, 7)] { State.reset with pc := 0x300 })).map State.pc = some 0x302 := by decide
/-- T-C14, T-C15. -/
theorem test_jpV0 : (run1 0xB300 (regs [(0, 5)] State.reset)).map State.pc = some 0x305 ∧
    (run1 0xBFFF (regs [(0, 0xFF)] State.reset)).map State.pc = some 0x10FE := by decide
/-- The second Steps of T-C15 and T-C17. -/
theorem test_fetch_out_of_range :
    (nextOr State.reset (step { State.reset with pc := 0x10FE })).mode = .halted ⟨.outOfRangeAddress, 0x10FE, 0x10FE⟩ ∧
    (nextOr State.reset (step { State.reset with pc := 0xFFF })).mode = .halted ⟨.outOfRangeAddress, 0x1000, 0xFFF⟩ := by decide
/-- P5: the empty program. -/
theorem test_unknown_opcode : (nextOr State.reset (step State.reset)).mode = .halted ⟨.unknownOpcode, 0, 0x200⟩ := by decide

/-! ALU (T-A). -/

/-- T-A1. -/
theorem test_ldImm : (run1 0x6A2F State.reset).map (fun t => t.reg 0xA) = some 0x2F := by decide
/-- T-A3. -/
theorem test_addImm : (run1 0x7002 (regs [(0, 0xFF), (0xF, 0x55)] State.reset)).map (fun t => (t.reg 0, t.reg 0xF)) =
    some (0x01, 0x55) := by decide
/-- T-A5. -/
theorem test_ldReg : (run1 0x8120 (regs [(2, 0x33)] State.reset)).map (fun t => (t.reg 1, t.reg 2)) = some (0x33, 0x33) := by
  decide
/-- T-A6. -/
theorem test_orReg : (run1 0x8121 (regs [(1, 0x0F), (2, 0xF0), (0xF, 0x77)] State.reset)).map (fun t => (t.reg 1, t.reg 0xF)) =
    some (0xFF, 0x77) := by decide
/-- T-A7. -/
theorem test_andReg : (run1 0x8122 (regs [(1, 0x3C), (2, 0x0F)] State.reset)).map (fun t => t.reg 1) = some 0x0C := by decide
/-- T-A8. -/
theorem test_xorReg : (run1 0x8123 (regs [(1, 0xFF), (2, 0x0F)] State.reset)).map (fun t => t.reg 1) = some 0xF0 := by decide
/-- T-A10. -/
theorem test_addReg : (run1 0x8124 (regs [(1, 0xC8), (2, 0x64)] State.reset)).map (fun t => (t.reg 1, t.reg 0xF)) =
    some (0x2C, 0x01) := by decide
/-- T-A14. -/
theorem test_addReg_vf : (run1 0x8F14 (regs [(0xF, 0xF0), (1, 0x20)] State.reset)).map (fun t => t.reg 0xF) = some 0x01 := by
  decide
/-- T-A18. -/
theorem test_sub_equal : (run1 0x8125 (regs [(1, 7), (2, 7), (0xF, 1)] State.reset)).map (fun t => (t.reg 1, t.reg 0xF)) =
    some (0, 0) := by decide
/-- T-A20. -/
theorem test_sub_vf : (run1 0x8F15 (regs [(0xF, 9), (1, 4)] State.reset)).map (fun t => t.reg 0xF) = some 5 := by decide
/-- T-A24. -/
theorem test_shr : (run1 0x84A6 (regs [(4, 5), (0xA, 0x99)] State.reset)).map (fun t => (t.reg 4, t.reg 0xA, t.reg 0xF)) =
    some (2, 0x99, 1) := by decide
/-- T-A25. -/
theorem test_shr_vf : (run1 0x8F06 (regs [(0xF, 7)] State.reset)).map (fun t => t.reg 0xF) = some 3 := by decide
/-- T-A28. -/
theorem test_subn : (run1 0x8127 (regs [(1, 5), (2, 7)] State.reset)).map (fun t => (t.reg 1, t.reg 2, t.reg 0xF)) =
    some (5, 2, 1) := by decide
/-- T-A31. -/
theorem test_subn_vf : (run1 0x81F7 (regs [(1, 2), (0xF, 9)] State.reset)).map (fun t => (t.reg 1, t.reg 0xF)) =
    some (2, 7) := by decide
/-- T-A33. -/
theorem test_shl : (run1 0x840E (regs [(4, 0x81)] State.reset)).map (fun t => (t.reg 4, t.reg 0xF)) = some (2, 1) := by decide
/-- T-A34. -/
theorem test_shl_vf : (run1 0x8F0E (regs [(0xF, 0xC1)] State.reset)).map (fun t => t.reg 0xF) = some 0x82 := by decide
/-- T-A37. -/
theorem test_rnd : (run1 0xC30F { State.reset with pending := [⟨0, 0xB7⟩] }).map (fun t => t.reg 3) = some 7 := by decide

/-! Display (T-G). -/

/-- T-G2. -/
theorem test_cls : (run1 0x0AE0 { State.reset with disp := onePixel 5 5 }).map (fun t => lit t.disp) = some [] := by
  decide +kernel
/-- T-G4. -/
theorem test_drw_wraps : (run1 0xD121 (regs [(1, 0x3F), (2, 0x1F)] { State.reset with i := 0x300, mem := [(0x300, 0xC0)] })).map
    (fun t => (lit t.disp, t.reg 0xF)) = some ([(31, 0), (31, 63)], 0) := by decide +kernel
/-- T-G7. -/
theorem test_drw_collides : (run1 0xD121 { State.reset with
      i := 0x300, mem := [(0x300, 0xC1)], disp := (onePixel 0 0).toggle 0 7 }).map (fun t => (lit t.disp, t.reg 0xF)) =
    some ([(0, 1)], 1) := by decide +kernel

/-! Keys and timers (T-K). -/

/-- T-K1, T-K2. -/
theorem test_skp : (run1 0xE29E (regs [(2, 0xA)] { State.reset with pending := [⟨0x0400, 0⟩] })).map State.pc = some 0x204 ∧
    (run1 0xE29E (regs [(2, 0xA)] { State.reset with pending := [⟨0, 0⟩] })).map State.pc = some 0x202 := by decide
/-- T-K6. -/
theorem test_skp_out_of_range : (run1 0xE29E (regs [(2, 0x10)] { State.reset with pending := [⟨0xFFFF, 0⟩] })).map
    (fun t => (t.mode, t.pc)) = some (.halted ⟨.keyIndexOutOfRange, 0x10, 0x200⟩, 0x202) := by decide
/-- T-K3, T-K4. -/
theorem test_sknp : (run1 0xE2A1 (regs [(2, 0xA)] { State.reset with pending := [⟨0x0400, 0⟩] })).map State.pc = some 0x202 ∧
    (run1 0xE2A1 (regs [(2, 0xA)] { State.reset with pending := [⟨0, 0⟩] })).map State.pc = some 0x204 := by decide
/-- T-K7. -/
theorem test_sknp_out_of_range : (run1 0xE2A1 (regs [(2, 0xFF)] State.reset)).map (fun t => (t.mode, t.pc)) =
    some (.halted ⟨.keyIndexOutOfRange, 0xFF, 0x200⟩, 0x202) := by decide
/-- T-K8. -/
theorem test_ldVxDT : (run1 0xF507 { State.reset with dt := 0x3C }).map (fun t => (t.reg 5, t.dt)) = some (0x3C, 0x3C) := by decide
/-- T-K9. -/
theorem test_ldDTVx : (run1 0xF515 (regs [(5, 0x3C)] State.reset)).map State.dt = some 0x3C := by decide
/-- T-K10. -/
theorem test_ldSTVx : (run1 0xF518 (regs [(5, 2)] State.reset)).map State.st = some 2 := by decide
/-- T-K11. -/
theorem test_ldVxK : (run1 0xF30A { State.reset with pending := [⟨0xFFFF, 0⟩] }).map (fun t => (t.mode, t.pc, t.reg 3)) =
    some (.waitKey 3, 0x202, 0) := by decide
/-- T-K13. -/
theorem test_poll : (fun t => (t.reg 3, t.mode, t.pc)) (nextOr State.reset
      (step { State.reset with mode := .waitKey 3, pc := 0x202, pending := [⟨0x0280, 0⟩] })) = (7, .running, 0x202) := by decide

/-! Index register and memory (T-M). -/

/-- T-M2. -/
theorem test_ldI : (run1 0xAFFF { State.reset with i := 0xFFFF }).map State.i = some 0x0FFF := by decide
/-- T-M3. -/
theorem test_addI : (run1 0xF11E (regs [(1, 5), (0xF, 1)] { State.reset with i := 0xFFE })).map (fun t => (t.i, t.reg 0xF)) =
    some (0x1003, 0) := by decide
/-- T-M4. -/
theorem test_addI_wraps : (run1 0xF11E (regs [(1, 2)] { State.reset with i := 0xFFFF })).map (fun t => (t.i, t.reg 0xF)) =
    some (1, 1) := by decide
/-- T-M8. -/
theorem test_ldF : (run1 0xF029 (regs [(0, 0xFF)] State.reset)).map State.i = some 0x04FB := by decide
/-- T-M14. -/
theorem test_ldB : (run1 0xF033 (regs [(0, 0x9C)] { State.reset with i := 0xFFD })).map
    (fun t => (t.byteAt 0xFFD, t.byteAt 0xFFE, t.byteAt 0xFFF, t.i)) = some (1, 5, 6, 0xFFD) := by decide
/-- T-M15. -/
theorem test_ldB_out_of_range : (run1 0xF033 (regs [(0, 0x9C)] { State.reset with i := 0xFFE })).map
    (fun t => (t.mode, t.byteAt 0xFFE, t.byteAt 0xFFF)) = some (.halted ⟨.outOfRangeAddress, 0x1000, 0x200⟩, 0, 0) := by decide
/-- T-M17. -/
theorem test_storeRegs : (run1 0xF255 (regs [(0, 0x11), (1, 0x22), (2, 0x33), (3, 0x44)] { State.reset with i := 0x300 })).map
    (fun t => (t.byteAt 0x300, t.byteAt 0x302, t.byteAt 0x303, t.i)) = some (0x11, 0x33, 0, 0x300) := by decide
/-- The load of T-D3, on the default font. -/
theorem test_loadRegs : (run1 0xF165 (regs [(2, 0x77)] State.reset)).map (fun t => (t.reg 0, t.reg 1, t.reg 2, t.i)) =
    some (0xF0, 0x90, 0x77, 0) := by decide

/-! Timers, scheduler, host (T-K14, T-S3, R68). -/

/-- T-K14. -/
theorem test_timerDec : (fun t => (t.dt, t.st)) ({ State.reset with dt := 1 }).timerDec = (0, 0) ∧
    (fun t => (t.dt, t.st)) State.reset.timerDec = (0, 0) := by decide
/-- T-S3 call 3: `FREQ` 500, `ACC_STEP` 1, `ACC_TIMER` 4, half a millisecond: 1 Step, no TimerDec. -/
theorem test_run_step : (fun t => (t.accStep, t.accTimer, t.samples, t.dt)) (nextOr State.reset (run (1 / 2) { State.reset with
      mem := [(0x200, 0x12)], config := { Config.default with freq := 500 }, accStep := 1, accTimer := 4, dt := 9 })) =
    (1 / 4, 9 / 2, 1, 9) := by decide +kernel
/-- T-S4: `ACC_STEP` 1 and `ACC_TIMER` 50/3 with nothing elapsed run nothing, the comparisons being strict; a microsecond more runs
1 Step and 1 TimerDec. -/
theorem test_run_strict : (fun t => (t.samples, t.dt)) (nextOr State.reset (run 0 { State.reset with
      mem := [(0x200, 0x12)], accStep := 1, accTimer := 50 / 3, dt := 9 })) = (0, 9) ∧
    (fun t => (t.samples, t.dt)) (nextOr State.reset (run (1 / 1000) { State.reset with
      mem := [(0x200, 0x12)], accStep := 1, accTimer := 50 / 3, dt := 9 })) = (1, 8) := by decide +kernel
/-- R68 and T-D6: a loaded byte is at 0x200 and upward; a reset takes it away and restores the font. -/
theorem test_load_reset : (State.reset.loadProgram [0x12, 0x34]).byteAt 0x201 = 0x34 ∧
    (State.reset.loadProgram [0x12, 0x34]).hostReset.byteAt 0x201 = 0 ∧
    (State.reset.storeBytes 0 [0xFF]).hostReset.byteAt 0 = 0xF0 := by decide

/-- R284 and T-C4: a jump to itself at 0x200 and a halted machine are at the end of a run; a jump elsewhere, a wait for a key and
the empty program before its first Step are not. -/
theorem test_finished : ({ State.reset with mem := [(0x200, 0x12)] } : State).finished = true ∧
    ({ State.reset with mode := .halted ⟨.unknownOpcode, 0, 0x200⟩ } : State).finished = true ∧
    ({ State.reset with mem := [(0x200, 0x12), (0x201, 0x34)] } : State).finished = false ∧
    ({ State.reset with mode := .waitKey 3, mem := [(0x200, 0x12)] } : State).finished = false ∧
    State.reset.finished = false := by decide

/-! Witnesses: a concrete state and operands that meet all the hypotheses of a statement together, one for each clause, at the
boundary of its range. The statement is named in each theorem's name. -/

/-- A state that waits for a key, with the announced keys of its next Step. -/
def waiting (keys : BitVec 16) : State := { State.reset with mode := .waitKey 3, pending := [⟨keys, 0⟩] }

/-- A halted state. -/
def halted : State := { State.reset with mode := .halted ⟨.stackUnderflow, 0, 0x200⟩ }

/-- A state whose last two bytes of memory, where PC is, are the word 0x00E0. -/
def atTop : State := { State.reset with pc := 0xFFE, mem := [(0xFFF, 0xE0)] }

theorem witness_EncodeUndoesDecode : decode 0x6A2F = some (.ldImm 0xA 0x2F) := by decide
theorem witness_OpcodeMapSelectsOneRow : decode 0x6A2F = some (.ldImm 0xA 0x2F) ∧ rowOf (.ldImm 0xA 0x2F) ∈ opcodeTable ∧
    (rowOf (.ldImm 0xA 0x2F)).selects 0x6A2F = true := by decide
theorem witness_MemReadChecksItsAddress : 4095 ≤ 4095 ∧ 4095 < 4096 := by decide
theorem witness_StepRunsDecodedInstruction : atTop.mode = .running ∧ atTop.pc.toNat ≤ 0xFFE ∧
    decode (BitVec.ofNat 16 ((atTop.byteAt atTop.pc.toNat).toNat * 256 + (atTop.byteAt (atTop.pc.toNat + 1)).toNat)) =
      some (.cls 0) := by decide
theorem witness_UnknownOpcodeHalts : State.reset.mode = .running ∧ State.reset.fetch = .ok 0 ∧ decode 0 = none := by decide
theorem witness_FetchOutOfRangeHalts : ({ State.reset with pc := 0xFFF } : State).mode = .running ∧
    0xFFE < ({ State.reset with pc := 0xFFF } : State).pc.toNat ∧ 0xFFE < ({ State.reset with pc := 0x1000 } : State).pc.toNat := by
  decide
theorem witness_WaitKeyStepPollsTheKeys_none : (waiting 0).mode = .waitKey 3 ∧
    ∀ k < 16, (waiting 0).nextPins.keys.getLsbD k = false := by decide
theorem witness_WaitKeyStepPollsTheKeys_held : (waiting 0x8000).mode = .waitKey 3 ∧ 15 < 16 ∧
    (waiting 0x8000).nextPins.keys.getLsbD 15 = true ∧ ∀ j < 15, (waiting 0x8000).nextPins.keys.getLsbD j = false := by decide
theorem witness_PlacedWordRunsNext : decodeTableWord 16 0x6A2F = some (.ldImm 0xA 0x2F) := by decide
theorem witness_HaltedIsAbsorbing : halted.mode = .halted ⟨.stackUnderflow, 0, 0x200⟩ ∧ (0 : Rat) ≤ 0 ∧
    0 < halted.config.freq := by decide +kernel
theorem witness_ResetIsIdempotentAndRestoresFont : 79 < 80 := by decide
theorem witness_ResetLeavesTheListedValues : 80 ≤ 80 ∧ 80 < 4096 ∧ 80 ≤ 4095 ∧ 4095 < 4096 := by decide
theorem witness_CallPushesTheReturnAddress_room : State.reset.config.stackDepth ≠ some State.reset.stack.length ∧
    ({ Config.default with stackDepth := some 1 } : Config).stackDepth ≠ some State.reset.stack.length := by decide
theorem witness_CallPushesTheReturnAddress_full :
    (State.powerOn { Config.default with stackDepth := some 0 }).config.stackDepth =
      some (State.powerOn { Config.default with stackDepth := some 0 }).stack.length := by decide
theorem witness_ReturnPopsTheStack : ({ State.reset with stack := [0x206] } : State).stack = [] ++ [0x206] ∧
    State.reset.stack = [] := by decide
theorem witness_ReturnUndoesCall : State.reset.config.stackDepth ≠ some State.reset.stack.length ∧
    exec (.call 0x300) State.reset = .next (nextOr State.reset (exec (.call 0x300) State.reset)) ∧
    ((nextOr State.reset (exec (.call 0x300) State.reset)).setReg 1 7).stack =
      (nextOr State.reset (exec (.call 0x300) State.reset)).stack := ⟨by decide, rfl, rfl⟩
theorem witness_AluLaws : ∃ (x y : RegIx) (a b : Nat), a = ((regs [(1, 0xFF)] State.reset).reg x).toNat ∧
    b = ((regs [(1, 0xFF)] State.reset).reg y).toNat ∧ x ≠ 15 ∧ y ≠ 15 := ⟨1, 14, 255, 0, by decide⟩
theorem witness_FlagRegisterAsDestination : ∃ f b : Nat, f = ((regs [(15, 0xFF)] State.reset).reg 15).toNat ∧
    b = ((regs [(15, 0xFF)] State.reset).reg 15).toNat := ⟨255, 255, by decide⟩
theorem witness_DrawTogglesTheCoveredPixels :
    ((0 : Nibble) = 0 ∨ ({ State.reset with i := 0xFFFF } : State).i.toNat + (0 : Nibble).toNat ≤ 4096) ∧
    ((15 : Nibble) = 0 ∨ ({ State.reset with i := 0xFF1 } : State).i.toNat + (15 : Nibble).toNat ≤ 4096) := by decide
theorem witness_DrawingTwiceRestoresTheDisplay :
    ∃ s t : State, ((5 : Nibble) = 0 ∨ s.i.toNat + (5 : Nibble).toNat ≤ 4096) ∧ exec (.drw 0 0 5) s = .next t ∧
      t.reg 0 = s.reg 0 :=
  ⟨State.reset, nextOr State.reset (exec (.drw 0 0 5) State.reset), by decide, rfl, by decide +kernel⟩
/-- On the blank display the first draw hits nothing. -/
theorem witness_SecondDrawAfterACleanFirst :
    ∃ s t : State, ((5 : Nibble) = 0 ∨ s.i.toNat + (5 : Nibble).toNat ≤ 4096) ∧ exec (.drw 0 0 5) s = .next t ∧
      t.reg 0 = s.reg 0 ∧ t.reg 15 = 0 :=
  ⟨State.reset, nextOr State.reset (exec (.drw 0 0 5) State.reset), by decide, rfl, by decide +kernel, by decide +kernel⟩
/-- The state with every pixel set: the first draw unsets, so the second one finds no set pixel. -/
def white : State := { State.reset with disp := Vector.replicate 32 (BitVec.allOnes 64) }
/-- All the hypotheses of the statement that is expected to fail, at the state where it does. -/
theorem witness_SecondDrawCollidesWheneverTheSpriteHasABit :
    ∃ t u : State, ((5 : Nibble) = 0 ∨ white.i.toNat + (5 : Nibble).toNat ≤ 4096) ∧ exec (.drw 0 0 5) white = .next t ∧
      t.reg 0 = white.reg 0 ∧ exec (.drw 0 0 5) t = .next u :=
  ⟨nextOr white (exec (.drw 0 0 5) white), _, by decide, rfl, by decide +kernel, rfl⟩
theorem witness_KeySkipsReadTheSampledLevel : ((regs [(2, 15)] State.reset).reg 2).toNat ≤ 15 ∧
    15 < ((regs [(2, 16)] State.reset).reg 2).toNat := by decide
theorem witness_BcdStoresTheDecimalDigits : ({ State.reset with i := 0xFFD } : State).i.toNat + 3 ≤ 4096 := by decide
theorem witness_StoreWritesTheRegisterBlock :
    ({ State.reset with i := 0xFF0 } : State).i.toNat + (15 : RegIx).toNat ≤ 4095 ∧ (15 : RegIx).toNat ≤ (15 : RegIx).toNat := by
  decide
theorem witness_LoadReadsTheRegisterBlock :
    ({ State.reset with i := 0xFFF } : State).i.toNat + (0 : RegIx).toNat ≤ 4095 ∧ (0 : RegIx).toNat ≤ (0 : RegIx).toNat := by
  decide
theorem witness_LoadUndoesStore : ∃ s t : State, s.i.toNat + (15 : RegIx).toNat ≤ 4095 ∧ exec (.storeRegs 15) s = .next t ∧
    (∀ a, (t.setReg 0 7).byteAt a = t.byteAt a) ∧ (t.setReg 0 7).i = t.i :=
  ⟨{ State.reset with i := 0xFF0 }, _, by decide, rfl, fun _ => rfl, rfl⟩
theorem witness_TransfersOutOfRangeWriteNothing :
    ((1 : Nibble) ≠ 0 ∧ 4096 < ({ State.reset with i := 0x1000 } : State).i.toNat + (1 : Nibble).toNat) ∧
    4096 < ({ State.reset with i := 0xFFE } : State).i.toNat + 3 ∧
    4095 < ({ State.reset with i := 0xFFF } : State).i.toNat + (1 : RegIx).toNat ∧
    4095 < ({ State.reset with i := 0x1000 } : State).i.toNat + (0 : RegIx).toNat := by decide
theorem witness_CanonicalMemoriesThatReadAlikeAreEqual : Memory.wf Config.defaultFont [(0x300, 1), (0xFFF, 2)] ∧
    Memory.wf Config.defaultFont (Memory.write Config.defaultFont [(0x300, 1)] 0xFFF 2) ∧
    ∀ a < 4096, Memory.read Config.defaultFont [(0x300, 1), (0xFFF, 2)] a =
      Memory.read Config.defaultFont (Memory.write Config.defaultFont [(0x300, 1)] 0xFFF 2) a :=
  ⟨by decide, by decide, fun _ _ => rfl⟩
theorem witness_InstructionsWriteOnlyWhatIsListed : State.reset.isHalted = false ∧
    exec (.ldImm 1 5) State.reset = .next (State.reset.setReg 1 5) ∧ (State.reset.setReg 1 5).isHalted = false := ⟨rfl, rfl, rfl⟩
theorem witness_InstructionsReadOnlyTheListedRegisters : (2 : RegIx) ∉ readsOf (.ldImm 1 5) ∧ (1 : RegIx) ∉ readsOf (.ldImm 1 5) ∧
    exec (.ldImm 1 5) State.reset = .next (State.reset.setReg 1 5) ∧
    (2 : RegIx) ∉ (writesOf State.reset (.ldImm 1 5)).regs ∧ (1 : RegIx) ∈ (writesOf State.reset (.ldImm 1 5)).regs ∧
    State.reset.isHalted = false ∧ (State.reset.setReg 1 5).isHalted = false :=
  ⟨by decide, by decide, rfl, by decide, by decide, rfl, rfl⟩
theorem witness_PcAfterAStep : (atTop.mode = .running ∧ atTop.pc.toNat ≤ 0xFFE) ∧
    (({ State.reset with pc := 0xFFF } : State).mode = .running ∧ 0xFFE < ({ State.reset with pc := 0xFFF } : State).pc.toNat) ∧
    (waiting 0).mode = .waitKey 3 := by decide
/-- Each of the four causes of the execute stage occurs. -/
theorem witness_EachHaltHasItsCause : State.reset.isHalted = false ∧
    (nextOr State.reset (exec (.ret 0) State.reset)).mode = .halted ⟨.stackUnderflow, 0, 0x1FE⟩ ∧
    (nextOr State.reset (exec (.call 0) (State.powerOn { Config.default with stackDepth := some 0 }))).mode =
      .halted ⟨.stackOverflow, 0x200, 0x1FE⟩ ∧
    (nextOr State.reset (exec (.skp 2) (regs [(2, 16)] State.reset))).mode = .halted ⟨.keyIndexOutOfRange, 16, 0x1FE⟩ ∧
    (nextOr State.reset (exec (.ldB 0) { State.reset with i := 0xFFE })).mode = .halted ⟨.outOfRangeAddress, 0x1000, 0x1FE⟩ := by
  decide
theorem witness_HaltsArePrecise : State.reset.isHalted = false ∧
    step State.reset = .next (nextOr State.reset (step State.reset)) ∧
    (nextOr State.reset (step State.reset)).mode = .halted ⟨.unknownOpcode, 0, 0x200⟩ :=
  ⟨by decide, step_unknown (op := 0) (by decide) (by decide) (by decide), by decide⟩
/-- A state at the edges of the invariant: PC at 0x10FE, a return address 0x1000, a full stack, memory with its last byte listed. -/
def edge : State :=
  { State.powerOn { Config.default with stackDepth := some 1 } with pc := 0x10FE, stack := [0x1000], mem := [(0xFFF, 1)] }
theorem edge_inv : Inv edge := ⟨by decide, by decide, by simp [edge], fun d h => (Option.some.inj (show some 1 = some d from h)).le⟩
theorem witness_StepKeepsTheInvariant : Inv edge ∧ step edge = .next (nextOr edge (step edge)) :=
  ⟨edge_inv, step_error (by decide) (by decide)⟩
theorem witness_HostEventsKeepTheInvariant : Inv edge ∧
    (HostEvent.loadProgram [0x12]).apply edge = .next (edge.loadProgram [0x12]) := ⟨edge_inv, rfl⟩
theorem witness_TimerDecCountsEachTimerDown : halted.isHalted = true ∧ State.reset.isHalted = false := by decide
theorem witness_TimerReachesZeroAfterItsValue : ({ State.reset with dt := 0xFF } : State).isHalted = false := by decide
theorem witness_RunAccountsForElapsedTime : State.reset.config.accArith = .exact ∧ (0 : Rat) ≤ 5 ∧ 0 < State.reset.config.freq ∧
    State.reset.isHalted = false := by decide +kernel
/-- In Running, at the last address a fetch can start from, with a Run that answers; and in Halted. -/
theorem witness_FinishedMachinesStayFinished :
    ({ State.reset with pc := 0xFFE, mem := [(0xFFE, 0x1F), (0xFFF, 0xFE)] } : State).finished = true ∧ halted.finished = true ∧
    ∃ t, run 0 { State.reset with pc := 0xFFE, mem := [(0xFFE, 0x1F), (0xFFF, 0xFE)] } = .next t :=
  ⟨by decide, by decide, next_of_answers (by decide +kernel)⟩
theorem witness_LoadProgramWritesFromTheEntry : State.reset.isHalted = false ∧ (List.replicate 3584 (0 : Byte)).length ≤ 3584 ∧
    3584 < (List.replicate 3585 (0 : Byte)).length := by
  simp only [List.length_replicate]
  decide
theorem witness_LoadedProgramRunsFromTheEntry : (List.replicate 3582 (0 : Byte)).length ≤ 3582 ∧
    decode (BitVec.ofNat 16 ((0x6A : Byte).toNat * 256 + (0x2F : Byte).toNat)) = some (.ldImm 0xA 0x2F) :=
  ⟨by rw [List.length_replicate], by decide⟩

end Sys2Proof.Tests
end

section
/-! SUPPORT. Reset (spec/10_state.md R43 to R45, spec/70_reset_and_hazards.md R270 to R272). -/

namespace Sys2Proof.Machine

/-- After a reset memory lists nothing, so every byte is the one reset leaves. -/
theorem State.hostReset_byteAt (s : State) (a : Nat) : s.hostReset.byteAt a = Memory.initial s.config.font a := rfl

theorem State.hostReset_reg (s : State) (x : RegIx) : s.hostReset.reg x = 0 := by
  simp [State.reg, State.hostReset, State.powerOn]

theorem Memory.initial_font {font : Font} {a : Nat} (h : a < 80) : Memory.initial font a = font[a] := dif_pos h

theorem Memory.initial_rest {font : Font} {a : Nat} (h : 80 ≤ a) : Memory.initial font a = 0 := dif_neg (by omega)

/-- Settles O15: what a reset leaves depends on the configuration and the inputs alone, and memory is then as `Memory.initial`
gives it. -/
theorem resetIsIdempotentAndRestoresFont : Obligations.ResetIsIdempotentAndRestoresFont := by
  intro s
  refine ⟨rfl, rfl, fun a h => ?_, fun _ _ => rfl⟩
  rw [State.hostReset_byteAt, Memory.initial_font h]

/-- Settles O16: each field by what reset writes there, memory above the font by `Memory.initial`. -/
theorem resetLeavesTheListedValues : Obligations.ResetLeavesTheListedValues := by
  intro s
  refine ⟨s.hostReset_reg, rfl, rfl, rfl, rfl, rfl, fun a h _ => ?_, Display.pixel_clear, rfl, rfl, rfl, rfl, rfl⟩
  rw [State.hostReset_byteAt, Memory.initial_rest h]

/-- Right after construction memory lists nothing, PC is the entry and the stack is empty. -/
theorem powerOn_inv (c : Config) : Inv (State.powerOn c) where
  mem := Memory.wf_nil
  pc := show (0x200 : Word).toNat ≤ 0x10FE by decide
  stack _ h := absurd h List.not_mem_nil
  depth _ _ := Nat.zero_le _

/-- Settles O46: the reset state is a power-on with the default configuration. -/
theorem resetMeetsTheInvariant : Obligations.ResetMeetsTheInvariant := ⟨powerOn_inv _, powerOn_inv⟩

end Sys2Proof.Machine
end

section
/-! SUPPORT. What an instruction can do: it raises, or it stays within its row of the tables of R22 and R66. One rule for each
operation over the state, then one case analysis over the instructions. -/

namespace Sys2Proof.Machine

variable {w : Writes} {s t u : State}

/-- The operation raised a fatal error: the state before it but for MODE (R226). -/
def Raised (s t : State) : Prop := ∃ c info, t = s.raise c info

theorem Raised.isHalted (h : Raised s t) : t.isHalted = true := by
  obtain ⟨c, info, rfl⟩ := h
  rfl

theorem Raised.pc (h : Raised s t) : t.pc = s.pc := by
  obtain ⟨c, info, rfl⟩ := h
  rfl

/-- An outcome that is a raise or has a property, and that does not end in a halt, has the property. -/
theorem of_not_halted {o : Result} {P : State → Prop} (hc : ∃ u, o = .next u ∧ (Raised s u ∨ P u)) (h : o = .next t)
    (ht : t.isHalted = false) : P t := by
  obtain ⟨u, hu, hr | hp⟩ := hc
  · cases h.symm.trans hu
    exact nomatch hr.isHalted.symm.trans ht
  · cases h.symm.trans hu
    exact hp

/-- What an operation that raises nothing does: everything outside `w` is unchanged, memory stays in canonical form, and the
machine does not halt. -/
structure Effect (w : Writes) (s t : State) : Prop extends Frame w s t where
  canonical : Memory.wf s.config.font s.mem → Memory.wf t.config.font t.mem
  live : s.isHalted = false → t.isHalted = false

namespace Effect

theorem refl (w : Writes) (s : State) : Effect w s s := { Frame.refl w s with canonical := id, live := id }

theorem trans (h : Effect w s t) (k : Effect w t u) : Effect w s u where
  regs r hr := (k.regs r hr).trans (h.regs r hr)
  pc e := (k.pc e).trans (h.pc e)
  i e := (k.i e).trans (h.i e)
  dt e := (k.dt e).trans (h.dt e)
  st e := (k.st e).trans (h.st e)
  stack e := (k.stack e).trans (h.stack e)
  mode e := (k.mode e).trans (h.mode e)
  disp e r c := (k.disp e r c).trans (h.disp e r c)
  mem a ha := (k.mem a ha).trans (h.mem a ha)
  accStep := k.accStep.trans h.accStep
  accTimer := k.accTimer.trans h.accTimer
  config := k.config.trans h.config
  pins := k.pins.trans h.pins
  pending := k.pending.trans h.pending
  samples := k.samples.trans h.samples
  canonical := k.canonical ∘ h.canonical
  live := k.live ∘ h.live

theorem setReg {x : RegIx} (hx : x ∈ w.regs) (b : Byte) : Effect w s (s.setReg x b) :=
  { refl w s with regs := fun _ hr => State.reg_setReg_ne s b fun e => hr (e ▸ hx) }

theorem setVF (hx : 15 ∈ w.regs) (f : Byte) : Effect w s (s.setVF f) := setReg hx f

theorem setPc (hw : w.pc = true) (a : Word) : Effect w s (s.setPc a) :=
  { refl w s with pc := fun e => nomatch hw.symm.trans e }

theorem skipIf (hw : w.pc = true) (c : Bool) : Effect w s (s.skipIf c) := by
  cases c
  · exact refl w s
  · exact setPc hw _

theorem setI (hw : w.i = true) (a : Word) : Effect w s (s.setI a) :=
  { refl w s with i := fun e => nomatch hw.symm.trans e }

theorem setDt (hw : w.dt = true) (b : Byte) : Effect w s { s with dt := b } :=
  { refl w s with dt := fun e => nomatch hw.symm.trans e }

theorem setSt (hw : w.st = true) (b : Byte) : Effect w s { s with st := b } :=
  { refl w s with st := fun e => nomatch hw.symm.trans e }

theorem setStack (hw : w.stack = true) (ws : List Word) : Effect w s { s with stack := ws } :=
  { refl w s with stack := fun e => nomatch hw.symm.trans e }

theorem setDisp (hw : w.disp = true) (d : Display) : Effect w s { s with disp := d } :=
  { refl w s with disp := fun e => nomatch hw.symm.trans e }

theorem waitKey (hw : w.mode = true) (x : RegIx) : Effect w s { s with mode := .waitKey x } :=
  { refl w s with mode := fun e => (nomatch hw.symm.trans e), live := fun _ => rfl }

theorem storeBytes {a : Nat} {bs : List Byte} (hw : span a bs.length ⊆ w.mem) : Effect w s (s.storeBytes a bs) :=
  { refl w s with
    mem := fun k hk => State.byteAt_storeBytes_outside s (by
      have : ¬ (a ≤ k ∧ k < a + bs.length) := fun hin => hk (hw (mem_span.mpr hin))
      omega)
    canonical := fun h => Memory.writeBytes_wf h a bs }

theorem setRegBlock {k : Nat} {bs : List Byte} (hw : ∀ j, k ≤ j → j < k + bs.length → BitVec.ofNat 4 j ∈ w.regs) :
    Effect w s (s.setRegBlock k bs) := by
  induction bs generalizing s k with
  | nil => exact refl w s
  | cons b bs ih =>
    rw [List.length_cons] at hw
    exact (setReg (hw k le_rfl (by omega)) b).trans (ih fun j hj hlt => hw j (by omega) (by omega))

end Effect

/-! The operations that can raise: the halt, or the effect. -/

theorem State.storeAtI_cases (s : State) (bs : List Byte) :
    Raised s (s.storeAtI bs) ∨ s.storeAtI bs = s.storeBytes s.base bs := by
  unfold State.storeAtI
  split
  · exact .inl ⟨_, _, rfl⟩
  · exact .inr rfl

theorem State.keySkip_cases (s : State) (x : RegIx) (held : Bool) :
    Raised s (s.keySkip x held) ∨ s.keySkip x held = s.skipIf (s.keyHeld (s.reg x).toNat == held) := by
  unfold State.keySkip
  simp only
  split
  · exact .inl ⟨_, _, rfl⟩
  · exact .inr rfl

theorem execRet_empty (h : s.stack = []) : execRet s = .next (s.raise .stackUnderflow 0) := by
  rw [execRet, State.pop_nil s h]

theorem execRet_nonempty (h : s.stack ≠ []) :
    execRet s = .next ({ s with stack := s.stack.dropLast }.setPc (s.stack.getLastD 0)) := by
  rw [execRet, State.pop_append s _ _ (List.dropLast_append_getLast h).symm, List.getLastD_eq_getLast?,
    List.getLast?_eq_some_getLast h]
  rfl

theorem execRet_cases (s : State) :
    ∃ t, execRet s = .next t ∧ (Raised s t ∨ t = { s with stack := s.stack.dropLast }.setPc (s.stack.getLastD 0)) := by
  by_cases h : s.stack = []
  · exact ⟨_, execRet_empty h, .inl ⟨_, _, rfl⟩⟩
  · exact ⟨_, execRet_nonempty h, .inr rfl⟩

theorem execCall_full (nnn : Addr) (h : s.config.stackDepth = some s.stack.length) :
    execCall nnn s = .next (s.raise .stackOverflow s.pc) := by
  rw [execCall, State.push_eq, if_pos h]

theorem execCall_room (nnn : Addr) (h : s.config.stackDepth ≠ some s.stack.length) :
    execCall nnn s = .next ({ s with stack := s.stack ++ [s.pc] }.setPc (addrOperand nnn)) := by
  rw [execCall, State.push_eq, if_neg h]

theorem execCall_cases (nnn : Addr) (s : State) :
    ∃ t, execCall nnn s = .next t ∧ (Raised s t ∨
      (s.config.stackDepth ≠ some s.stack.length ∧ t = { s with stack := s.stack ++ [s.pc] }.setPc (addrOperand nnn))) := by
  by_cases h : s.config.stackDepth = some s.stack.length
  · exact ⟨_, execCall_full nnn h, .inl ⟨_, _, rfl⟩⟩
  · exact ⟨_, execCall_room nnn h, .inr ⟨h, rfl⟩⟩

theorem execDrw_fault {n : Nibble} {bad : Nat} (x y : RegIx) (h : spanFault s.base n.toNat = some bad) :
    execDrw x y n s = .next (s.raise .outOfRangeAddress (BitVec.ofNat 16 bad)) := by
  rw [execDrw, h]

/-- What a draw whose rows are in range leaves: the drawn surface and the collision flag. -/
def State.drawn (s : State) (a b : Byte) (n : Nibble) : State :=
  let drawn := s.disp.drawSprite a.toNat b.toNat (s.loadBytes s.base n.toNat)
  { s with disp := drawn.1 }.setVF (flag drawn.2)

theorem execDrw_fits {n : Nibble} (x y : RegIx) (h : spanFault s.base n.toNat = none) :
    execDrw x y n s = .next (s.drawn (s.reg x) (s.reg y) n) := by
  rw [execDrw, h]
  rfl

theorem execDrw_cases (x y : RegIx) (n : Nibble) (s : State) :
    ∃ t, execDrw x y n s = .next t ∧ (Raised s t ∨ t = s.drawn (s.reg x) (s.reg y) n) := by
  cases h : spanFault s.base n.toNat with
  | some bad => exact ⟨_, execDrw_fault x y h, .inl ⟨_, _, rfl⟩⟩
  | none => exact ⟨_, execDrw_fits x y h, .inr rfl⟩

theorem execLoadRegs_fault {x : RegIx} {bad : Nat} (h : spanFault s.base (x.toNat + 1) = some bad) :
    execLoadRegs x s = .next (s.raise .outOfRangeAddress (BitVec.ofNat 16 bad)) := by
  rw [execLoadRegs, h]

theorem execLoadRegs_fits {x : RegIx} (h : spanFault s.base (x.toNat + 1) = none) :
    execLoadRegs x s = .next (s.setRegBlock 0 (s.loadBytes s.base (x.toNat + 1))) := by
  rw [execLoadRegs, h]

theorem execLoadRegs_cases (x : RegIx) (s : State) :
    ∃ t, execLoadRegs x s = .next t ∧ (Raised s t ∨ t = s.setRegBlock 0 (s.loadBytes s.base (x.toNat + 1))) := by
  cases h : spanFault s.base (x.toNat + 1) with
  | some bad => exact ⟨_, execLoadRegs_fault h, .inl ⟨_, _, rfl⟩⟩
  | none => exact ⟨_, execLoadRegs_fits h, .inr rfl⟩

/-- A store through I stays within the addresses from I on. -/
theorem State.storeAtI_effect {bs : List Byte} (hw : span s.base bs.length ⊆ w.mem) :
    Raised s (s.storeAtI bs) ∨ Effect w s (s.storeAtI bs) := by
  refine (s.storeAtI_cases bs).imp_right fun h => ?_
  rw [h]
  exact Effect.storeBytes hw

theorem State.keySkip_effect (x : RegIx) (held : Bool) (hw : w.pc = true) :
    Raised s (s.keySkip x held) ∨ Effect w s (s.keySkip x held) := by
  refine (s.keySkip_cases x held).imp_right fun h => ?_
  rw [h]
  exact Effect.skipIf hw _

/-- Every instruction answers a next state; it raises, or has its effect within its row of the tables of R22 and R66. -/
theorem exec_cases (i : Instr) (s : State) :
    ∃ t, exec i s = .next t ∧ (Raised s t ∨ Effect (writesOf s i) s t) := by
  cases i with
  | cls ign => exact ⟨_, rfl, .inr (.setDisp rfl _)⟩
  | ret ign =>
    obtain ⟨t, ht, h⟩ := execRet_cases s
    refine ⟨t, ht, h.imp_right ?_⟩
    rintro rfl
    exact (Effect.setStack rfl _).trans (.setPc rfl _)
  | call nnn =>
    obtain ⟨t, ht, h⟩ := execCall_cases nnn s
    refine ⟨t, ht, h.imp_right ?_⟩
    rintro ⟨-, rfl⟩
    exact (Effect.setStack rfl _).trans (.setPc rfl _)
  | jp nnn | jpV0 nnn => exact ⟨_, rfl, .inr (.setPc rfl _)⟩
  | seImm x kk | sneImm x kk | seReg x y ign | sneReg x y ign => exact ⟨_, rfl, .inr (.skipIf rfl _)⟩
  | ldImm x kk | addImm x kk | ldReg x y | orReg x y | andReg x y | xorReg x y | rnd x kk | ldVxDT x =>
    exact ⟨_, rfl, .inr (.setReg (List.mem_singleton_self x) _)⟩
  | addReg x y => exact ⟨_, rfl, .inr ((Effect.setReg (by simp [writesOf]) _).trans (.setVF (by simp [writesOf]) _))⟩
  | sub x y | shr x ign | shl x ign | subn x y =>
    exact ⟨_, rfl, .inr ((Effect.setVF (by simp [writesOf]) _).trans (.setReg (by simp [writesOf]) _))⟩
  | ldI nnn | ldF x => exact ⟨_, rfl, .inr (.setI rfl _)⟩
  | addI x => exact ⟨_, rfl, .inr ((Effect.setI rfl _).trans (.setVF (by simp [writesOf]) _))⟩
  | drw x y n =>
    obtain ⟨t, ht, h⟩ := execDrw_cases x y n s
    refine ⟨t, ht, h.imp_right ?_⟩
    rintro rfl
    exact (Effect.setDisp rfl _).trans (.setVF (by simp [writesOf]) _)
  | skp x | sknp x => exact ⟨_, rfl, State.keySkip_effect x _ rfl⟩
  | ldVxK x => exact ⟨_, rfl, .inr (.waitKey rfl x)⟩
  | ldDTVx x => exact ⟨_, rfl, .inr (.setDt rfl _)⟩
  | ldSTVx x => exact ⟨_, rfl, .inr (.setSt rfl _)⟩
  | ldB x => exact ⟨_, rfl, State.storeAtI_effect (List.Subset.refl _)⟩
  | storeRegs x => exact ⟨_, rfl, State.storeAtI_effect (by rw [State.regBlock_length]; exact List.Subset.refl _)⟩
  | loadRegs x =>
    obtain ⟨t, ht, h⟩ := execLoadRegs_cases x s
    refine ⟨t, ht, h.imp_right ?_⟩
    rintro rfl
    refine .setRegBlock fun j _ hj => ?_
    rw [State.loadBytes_length, Nat.zero_add] at hj
    exact List.mem_map_of_mem (List.mem_range.mpr hj)

/-- What an instruction that does not end in a halt has done. -/
theorem Effect.of_exec {i : Instr} (h : exec i s = .next t) (ht : t.isHalted = false) : Effect (writesOf s i) s t :=
  (of_not_halted (exec_cases i s) h ht :)

/-- Settles O39: an instruction that has not halted has its effect, and the effect is within the frame. -/
theorem instructionsWriteOnlyWhatIsListed : Obligations.InstructionsWriteOnlyWhatIsListed :=
  fun _ _ _ _ h ht => (Effect.of_exec h ht).toFrame

end Sys2Proof.Machine
end

section
/-! SUPPORT. How PC and the stack come out of an instruction (spec/10_state.md R25, R29), and the invariant of a Step. -/

namespace Sys2Proof.Machine

variable {s t : State} {i : Instr} {a : Word}

theorem State.skipIf_pc (ha : s.pc = a + 2) (c : Bool) : (s.skipIf c).pc = if c then a + 4 else a + 2 := by
  rw [State.skipIf_eq, ha]
  cases c
  · rfl
  · simp [BitVec.add_assoc]

theorem State.keySkip_pc (ha : s.pc = a + 2) {x : RegIx} {held : Bool} (h : (s.keySkip x held).isHalted = false) :
    (s.keySkip x held).pc = if s.keyHeld (s.reg x).toNat == held then a + 4 else a + 2 := by
  rcases s.keySkip_cases x held with hr | he
  · exact nomatch hr.isHalted.symm.trans h
  · rw [he, State.skipIf_pc ha]

theorem execRet_live (h : execRet s = .next t) (ht : t.isHalted = false) :
    t = { s with stack := s.stack.dropLast }.setPc (s.stack.getLastD 0) :=
  (of_not_halted (execRet_cases s) h ht :)

theorem execCall_live {nnn : Addr} (h : execCall nnn s = .next t) (ht : t.isHalted = false) :
    s.config.stackDepth ≠ some s.stack.length ∧ t = { s with stack := s.stack ++ [s.pc] }.setPc (addrOperand nnn) :=
  (of_not_halted (execCall_cases nnn s) h ht :)

theorem addrOperand_eq (nnn : Addr) : addrOperand nnn = BitVec.ofNat 16 nnn.toNat := (BitVec.ofNat_toNat 16 nnn).symm

/-- PC after an instruction that does not end in a halt, by the table of R25. -/
theorem exec_pc (h : exec i s = .next t) (ht : t.isHalted = false) (ha : s.pc = a + 2) :
    t.pc = pcAfter s s.pins.keys a i := by
  have he := Effect.of_exec h ht
  cases i with
  | ret ign =>
    rw [execRet_live h ht]
    rfl
  | call nnn =>
    rw [(execCall_live h ht).2]
    exact addrOperand_eq nnn
  | jp nnn =>
    cases h
    exact addrOperand_eq nnn
  | jpV0 nnn =>
    cases h
    simp [pcAfter, addrOperand, zext16, BitVec.ofNat_add]
  | seImm x kk | sneImm x kk | seReg x y ign | sneReg x y ign =>
    cases h
    rw [State.skipIf_pc ha]
    simp [pcAfter]
  | skp x =>
    cases h
    rw [State.keySkip_pc ha ht]
    simp [pcAfter, State.keyHeld]
  | sknp x =>
    cases h
    rw [State.keySkip_pc ha ht]
    cases hk : s.pins.keys.getLsbD (s.reg x).toNat <;> simp [pcAfter, State.keyHeld, hk]
  | _ => exact (he.pc rfl).trans ha

/-- The stack after an instruction that does not end in a halt: as it was, popped, or pushed on where there was room. -/
theorem exec_stack (h : exec i s = .next t) (ht : t.isHalted = false) :
    t.stack = s.stack ∨ t.stack = s.stack.dropLast ∨
      (s.config.stackDepth ≠ some s.stack.length ∧ t.stack = s.stack ++ [s.pc]) := by
  have he := Effect.of_exec h ht
  cases i with
  | ret ign => exact .inr (.inl (by rw [execRet_live h ht]; rfl))
  | call nnn =>
    obtain ⟨hroom, rfl⟩ := execCall_live h ht
    exact .inr (.inr ⟨hroom, rfl⟩)
  | _ => exact .inl (he.stack rfl)

/-! PC after a Step. -/

/-- The table of R25 reads the registers and the stack, which the sample and the advance of PC leave alone. -/
theorem pcAfter_sample_advancePc (s : State) (keys : BitVec 16) (a : Word) (i : Instr) :
    pcAfter s.sample.advancePc keys a i = pcAfter s keys a i := by
  cases i <;> rfl

theorem State.poll_pc (s : State) (k : RegIx) : (s.poll k).pc = s.pc := by
  unfold State.poll
  split <;> rfl

theorem State.isHalted_of_running (h : s.mode = .running) : s.isHalted = false := by
  simp [State.isHalted, h]

/-- The execute stage of a Step: the halt with PC advanced, or PC as the table of R25 gives it. -/
theorem exec_pc_of_step (hm : s.mode = .running) (i : Instr) :
    ∃ t, exec i s.sample.advancePc = .next t ∧ (t.isHalted = true → t.pc = s.pc + 2) ∧
      (t.isHalted = false → t.pc = pcAfter s s.nextPins.keys s.pc i ∧
        ∀ nnn, i = .call nnn → t.stack = s.stack ++ [s.pc + 2]) := by
  obtain ⟨t, h, hr | he⟩ := exec_cases i s.sample.advancePc
  · exact ⟨t, h, fun _ => hr.pc, fun ht => nomatch hr.isHalted.symm.trans ht⟩
  · have ht := he.live (State.isHalted_of_running hm)
    refine ⟨t, h, fun ht' => (nomatch ht'.symm.trans ht), fun _ => ⟨?_, ?_⟩⟩
    · rw [exec_pc h ht rfl, pcAfter_sample_advancePc]
      rfl
    · rintro nnn rfl
      rw [(execCall_live h ht).2]
      rfl

/-- Settles O41, along the stages of a Step: the fetch that fails, the opcode that decodes to nothing, the execute stage, the
poll. -/
theorem pcAfterAStep : Obligations.PcAfterAStep := by
  intro s
  refine ⟨fun hm hpc => ⟨_, step_error hm hpc, rfl, rfl⟩, fun hm hpc => ?_, fun k hm => ⟨_, step_waitKey hm, ?_⟩⟩
  · have hf := State.fetch_ok hpc
    cases hd : decode (opcodeOf (s.byteAt s.pc.toNat) (s.byteAt (s.pc.toNat + 1))) with
    | none => exact ⟨_, step_unknown hm hf hd, fun _ => rfl, fun h => nomatch h⟩
    | some i =>
      obtain ⟨t, h, hhalt, hlive⟩ := exec_pc_of_step hm i
      exact ⟨t, (step_decoded hm hf hd).trans h, hhalt, fun ht => ⟨_, i, hf, hd, hlive ht⟩⟩
  · exact State.poll_pc _ k

/-! The invariant. -/

/-- The invariant looks at memory, the configuration, PC and the stack only. -/
theorem Inv.congr (hi : Inv s) (hmem : t.mem = s.mem) (hconfig : t.config = s.config) (hpc : t.pc.toNat ≤ 0x10FE)
    (hstack : t.stack = s.stack) : Inv t where
  mem := by
    rw [hmem, hconfig]
    exact hi.mem
  pc := hpc
  stack := by
    rw [hstack]
    exact hi.stack
  depth := by
    rw [hstack, hconfig]
    exact hi.depth

theorem Inv.raised (hi : Inv s) (h : Raised s t) : Inv t := by
  obtain ⟨c, info, rfl⟩ := h
  exact hi.congr rfl rfl hi.pc rfl

theorem Inv.poll (hi : Inv s) (k : RegIx) : Inv (s.poll k) := by
  unfold State.poll
  split
  · exact hi
  · exact hi.congr rfl rfl hi.pc rfl

theorem Inv.sample (hi : Inv s) : Inv s.sample := hi.congr rfl rfl hi.pc rfl

/-- After a fetch that succeeded PC advances without a wrap. -/
theorem toNat_add_two_of_le (ha : a.toNat ≤ 0xFFE) : (a + 2).toNat = a.toNat + 2 := by
  rw [BitVec.toNat_add]
  exact Nat.mod_eq_of_lt (show a.toNat + 2 < 2 ^ 16 by omega)

theorem toNat_add_four_of_le (ha : a.toNat ≤ 0xFFE) : (a + 4).toNat = a.toNat + 4 := by
  rw [BitVec.toNat_add]
  exact Nat.mod_eq_of_lt (show a.toNat + 4 < 2 ^ 16 by omega)

theorem Inv.advancePc (hi : Inv s) (hpc : s.pc.toNat ≤ 0xFFE) : Inv s.advancePc := by
  refine hi.congr rfl rfl ?_ rfl
  rw [State.advancePc_pc, toNat_add_two_of_le hpc]
  omega

/-- Every row of the table of R25 keeps PC within 0x10FE: `JP V0,nnn` reaches highest (R26). -/
theorem pcAfter_le (hi : Inv s) (keys : BitVec 16) (ha : a.toNat ≤ 0xFFE) (i : Instr) :
    (pcAfter s keys a i).toNat ≤ 0x10FE := by
  have h2 : (a + 2).toNat ≤ 0x10FE := by
    rw [toNat_add_two_of_le ha]
    omega
  have h4 : (a + 4).toNat ≤ 0x10FE := by
    rw [toNat_add_four_of_le ha]
    omega
  cases i with
  | ret ign =>
    rw [pcAfter, List.getLastD_eq_getLast?]
    cases h : s.stack.getLast? with
    | none => exact Nat.zero_le _
    | some r => exact (hi.stack r (List.mem_of_getLast? h)).trans (by omega)
  | jp nnn | call nnn =>
    have hn := nnn.isLt
    rw [pcAfter, BitVec.toNat_ofNat]
    omega
  | jpV0 nnn =>
    have hn := nnn.isLt
    have hv := (s.reg 0).isLt
    rw [pcAfter, BitVec.toNat_ofNat]
    omega
  | seImm x kk | sneImm x kk | seReg x y ign | sneReg x y ign | skp x =>
    rw [pcAfter]
    split
    · exact h4
    · exact h2
  | sknp x =>
    rw [pcAfter]
    split
    · exact h2
    · exact h4
  | _ => exact h2

theorem exec_stack_le (hi : Inv s) (hpc : s.pc.toNat ≤ 0x1000) (h : exec i s = .next t) (ht : t.isHalted = false) :
    ∀ r ∈ t.stack, r.toNat ≤ 0x1000 := by
  intro r hr
  rcases exec_stack h ht with e | e | ⟨-, e⟩
  · exact hi.stack r (e ▸ hr)
  · exact hi.stack r (List.mem_of_mem_dropLast (e ▸ hr))
  · rw [e, List.mem_append, List.mem_singleton] at hr
    rcases hr with hr | rfl
    · exact hi.stack r hr
    · exact hpc

theorem exec_depth (hi : Inv s) (h : exec i s = .next t) (ht : t.isHalted = false) :
    ∀ d, s.config.stackDepth = some d → t.stack.length ≤ d := by
  intro d hd
  have hle := hi.depth d hd
  rcases exec_stack h ht with e | e | ⟨hroom, e⟩
  · rwa [e]
  · rw [e, List.length_dropLast]
    omega
  · have hne : d ≠ s.stack.length := fun hdl => hroom (hd.trans (congrArg some hdl))
    rw [e, List.length_append, List.length_singleton]
    omega

/-- The execute stage keeps the invariant, at every address a fetch can succeed at. -/
theorem exec_inv (hi : Inv s) (hs : s.isHalted = false) (ha : s.pc = a + 2) (hle : a.toNat ≤ 0xFFE)
    (h : exec i s = .next t) : Inv t := by
  obtain ⟨u, hu, hr | he⟩ := exec_cases i s
  · cases h.symm.trans hu
    exact hi.raised hr
  · cases h.symm.trans hu
    have ht := he.live hs
    have hpc : s.pc.toNat ≤ 0x1000 := by
      rw [ha, toNat_add_two_of_le hle]
      omega
    exact {
      mem := he.canonical hi.mem
      pc := exec_pc h ht ha ▸ pcAfter_le hi _ hle i
      stack := exec_stack_le hi hpc h ht
      depth := he.config ▸ exec_depth hi h ht }

/-- Settles O44, along the cases of a Step: the execute stage is the one that moves PC by more than 2 or touches memory and the
stack. -/
theorem stepKeepsTheInvariant : Obligations.StepKeepsTheInvariant := by
  intro s t hi h
  rcases step_cases s with ⟨r, -, e⟩ | ⟨k, -, e⟩ | ⟨-, -, e⟩ | ⟨-, hpc, op, -, -, e⟩ | ⟨hm, hpc, op, i, -, -, e⟩
  · cases h.symm.trans e
    exact hi
  · cases h.symm.trans e
    exact hi.sample.poll k
  · cases h.symm.trans e
    exact hi.congr rfl rfl hi.pc rfl
  · cases h.symm.trans e
    exact (hi.sample.advancePc hpc).raised ⟨_, _, rfl⟩
  · exact exec_inv (hi.sample.advancePc hpc) (State.isHalted_of_running hm) rfl hpc (e.symm.trans h)

end Sys2Proof.Machine
end

section
/-! SUPPORT. Noninterference of the registers (spec/10_state.md R22): a register write commutes with every operation that neither
reads nor writes that register, and is lost where the operation writes it. -/

namespace Sys2Proof.Machine

variable {s t : State} {r : RegIx} {b : Byte} {i : Instr}

theorem State.setReg_comm (s : State) {x : RegIx} (h : r ≠ x) (b c : Byte) :
    (s.setReg r b).setReg x c = (s.setReg x c).setReg r b := by
  have hv := Vector.set_comm b c (xs := s.v) (hi := r.isLt) (hj := x.isLt) fun e => h (BitVec.eq_of_toNat_eq e)
  simp [State.setReg, hv]

@[simp] theorem State.setReg_setReg (s : State) (r : RegIx) (b c : Byte) : (s.setReg r b).setReg r c = s.setReg r c := by
  simp [State.setReg]

theorem State.setVF_setReg_comm (s : State) (h : r ≠ 15) (b f : Byte) : (s.setReg r b).setVF f = (s.setVF f).setReg r b :=
  s.setReg_comm h b f

@[simp] theorem State.setVF_setReg (s : State) (b f : Byte) : (s.setReg 15 b).setVF f = s.setVF f := s.setReg_setReg 15 b f

theorem State.setI_setReg (s : State) (r : RegIx) (b : Byte) (w : Word) : (s.setReg r b).setI w = (s.setI w).setReg r b := rfl

theorem State.skipIf_setReg (s : State) (r : RegIx) (b : Byte) (c : Bool) :
    (s.setReg r b).skipIf c = (s.skipIf c).setReg r b := by
  cases c <;> rfl

theorem State.keySkip_setReg (s : State) {x : RegIx} (h : (s.setReg r b).reg x = s.reg x) (held : Bool) :
    (s.setReg r b).keySkip x held = (s.keySkip x held).setReg r b := by
  unfold State.keySkip
  simp only [h, State.skipIf_setReg]
  split <;> rfl

theorem State.storeAtI_setReg (s : State) (r : RegIx) (b : Byte) (bs : List Byte) :
    (s.setReg r b).storeAtI bs = (s.storeAtI bs).setReg r b := by
  unfold State.storeAtI
  simp only [State.base, State.setReg_i]
  split <;> rfl

theorem State.regBlock_setReg (s : State) {x : RegIx} (h : r ∉ regsUpTo x) (b : Byte) :
    (s.setReg r b).regBlock x = s.regBlock x :=
  List.map_congr_left fun _ hk => State.reg_setReg_ne s b fun e => h (e ▸ List.mem_map_of_mem hk)

/-- A block load past a register it does not write. -/
theorem State.setRegBlock_setReg_comm (s : State) {k : Nat} {bs : List Byte}
    (h : ∀ j, k ≤ j → j < k + bs.length → r ≠ BitVec.ofNat 4 j) (b : Byte) :
    (s.setReg r b).setRegBlock k bs = (s.setRegBlock k bs).setReg r b := by
  induction bs generalizing s k with
  | nil => rfl
  | cons c bs ih =>
    rw [List.length_cons] at h
    rw [State.setRegBlock, State.setReg_comm s (h k le_rfl (by omega)), ih _ fun j hj hlt => h j (by omega) (by omega)]
    rfl

/-- A block load over a register it writes. -/
theorem State.setRegBlock_setReg (s : State) {k : Nat} {bs : List Byte} (hk : k ≤ r.toNat) (hr : r.toNat < k + bs.length)
    (b : Byte) : (s.setReg r b).setRegBlock k bs = s.setRegBlock k bs := by
  induction bs generalizing s k with
  | nil => exact absurd hr (by simpa using hk)
  | cons c bs ih =>
    rw [List.length_cons] at hr
    rw [State.setRegBlock, State.setRegBlock]
    by_cases he : r = BitVec.ofNat 4 k
    · rw [← he, State.setReg_setReg]
    · have hne : r.toNat ≠ k := fun e => he (by rw [← e, BitVec.ofNat_toNat, BitVec.setWidth_eq])
      rw [State.setReg_comm s he, ih _ (by omega) (by omega)]

@[simp] theorem State.setReg_base (s : State) (r : RegIx) (b : Byte) : (s.setReg r b).base = s.base := rfl

@[simp] theorem State.setReg_loadBytes (s : State) (r : RegIx) (b : Byte) (a n : Nat) :
    (s.setReg r b).loadBytes a n = s.loadBytes a n := rfl

theorem State.drawn_setReg_comm (s : State) (h : r ≠ 15) (b c d : Byte) (n : Nibble) :
    (s.setReg r b).drawn c d n = (s.drawn c d n).setReg r b :=
  State.setVF_setReg_comm { s with disp := (s.disp.drawSprite c.toNat d.toNat (s.loadBytes s.base n.toNat)).1 } h b _

@[simp] theorem State.drawn_setReg (s : State) (b c d : Byte) (n : Nibble) : (s.setReg 15 b).drawn c d n = s.drawn c d n :=
  State.setVF_setReg { s with disp := (s.disp.drawSprite c.toNat d.toNat (s.loadBytes s.base n.toNat)).1 } b _

theorem execRet_setReg_comm (h : execRet s = .next t) (r : RegIx) (b : Byte) : execRet (s.setReg r b) = .next (t.setReg r b) := by
  by_cases hs : s.stack = []
  · cases h.symm.trans (execRet_empty hs)
    exact execRet_empty (s := s.setReg r b) hs
  · cases h.symm.trans (execRet_nonempty hs)
    exact execRet_nonempty (s := s.setReg r b) hs

theorem execCall_setReg_comm {nnn : Addr} (h : execCall nnn s = .next t) (r : RegIx) (b : Byte) :
    execCall nnn (s.setReg r b) = .next (t.setReg r b) := by
  by_cases hd : s.config.stackDepth = some s.stack.length
  · cases h.symm.trans (execCall_full nnn hd)
    exact execCall_full (s := s.setReg r b) nnn hd
  · cases h.symm.trans (execCall_room nnn hd)
    exact execCall_room (s := s.setReg r b) nnn hd

theorem execDrw_setReg_comm {x y : RegIx} {n : Nibble} (h : execDrw x y n s = .next t) (hx : (s.setReg r b).reg x = s.reg x)
    (hy : (s.setReg r b).reg y = s.reg y) (hr : r ≠ 15) : execDrw x y n (s.setReg r b) = .next (t.setReg r b) := by
  cases hf : spanFault s.base n.toNat with
  | some bad =>
    cases h.symm.trans (execDrw_fault x y hf)
    exact execDrw_fault (s := s.setReg r b) x y hf
  | none =>
    cases h.symm.trans (execDrw_fits x y hf)
    rw [execDrw_fits (s := s.setReg r b) x y hf, hx, hy, State.drawn_setReg_comm s hr]

theorem execLoadRegs_setReg_comm {x : RegIx} (h : execLoadRegs x s = .next t) (hw : r ∉ regsUpTo x) (b : Byte) :
    execLoadRegs x (s.setReg r b) = .next (t.setReg r b) := by
  cases hf : spanFault s.base (x.toNat + 1) with
  | some bad =>
    cases h.symm.trans (execLoadRegs_fault hf)
    exact execLoadRegs_fault (s := s.setReg r b) hf
  | none =>
    cases h.symm.trans (execLoadRegs_fits hf)
    rw [execLoadRegs_fits (s := s.setReg r b) hf]
    refine congrArg _ (State.setRegBlock_setReg_comm s (fun j _ hj e => hw ?_) b)
    rw [State.loadBytes_length, Nat.zero_add] at hj
    exact e ▸ List.mem_map_of_mem (List.mem_range.mpr hj)

/-- An instruction sees nothing of a change to a register it does not read. -/
theorem reg_setReg_of_not_read (hr : r ∉ readsOf i) : ∀ x ∈ readsOf i, (s.setReg r b).reg x = s.reg x :=
  fun _ hx => State.reg_setReg_ne s b fun e => hr (e ▸ hx)

/-- The register is neither read nor written: the instruction runs alike past the change. -/
theorem exec_setReg_comm (hr : r ∉ readsOf i) (hw : r ∉ (writesOf s i).regs) (h : exec i s = .next t) (b : Byte) :
    exec i (s.setReg r b) = .next (t.setReg r b) := by
  have hreg := reg_setReg_of_not_read (s := s) (b := b) hr
  have hset : ∀ x ∈ (writesOf s i).regs, ∀ (u : State) (c : Byte), (u.setReg r b).setReg x c = (u.setReg x c).setReg r b := by
    intro x hx u c
    refine u.setReg_comm ?_ b c
    rintro rfl
    exact hw hx
  cases i with
  | cls ign | jp nnn | ldI nnn | ldVxK x =>
    cases h
    rfl
  | ret ign => exact execRet_setReg_comm h r b
  | call nnn => exact execCall_setReg_comm h r b
  | jpV0 nnn | ldDTVx x | ldSTVx x | ldF x =>
    cases h
    simp only [readsOf, List.forall_mem_singleton] at hreg
    simp only [exec, execJpV0, execLdDTVx, execLdSTVx, execLdF, hreg]
    rfl
  | seImm x kk | sneImm x kk =>
    cases h
    simp only [readsOf, List.forall_mem_singleton] at hreg
    simp only [exec, execSeImm, execSneImm, hreg, State.skipIf_setReg]
  | seReg x y ign | sneReg x y ign =>
    cases h
    simp only [readsOf, List.forall_mem_cons] at hreg
    simp only [exec, execSeReg, execSneReg, hreg, State.skipIf_setReg]
  | ldImm x kk | rnd x kk | ldVxDT x =>
    cases h
    simp only [writesOf, List.forall_mem_singleton] at hset
    simp only [exec, execLdImm, execRnd, execLdVxDT, hset, State.setReg_pins, State.setReg_dt]
  | addImm x kk | ldReg x y =>
    cases h
    simp only [readsOf, writesOf, List.forall_mem_singleton] at hreg hset
    simp only [exec, execAddImm, execLdReg, hreg, hset]
  | orReg x y | andReg x y | xorReg x y =>
    cases h
    simp only [readsOf, writesOf, List.forall_mem_cons] at hreg hset
    simp only [exec, execOrReg, execAndReg, execXorReg, hreg, hset]
  | addReg x y | sub x y | shr x ign | subn x y | shl x ign =>
    cases h
    simp only [readsOf, writesOf, List.forall_mem_cons] at hreg hset
    simp only [exec, execAddReg, execSub, execShr, execSubn, execShl, State.setVF, hreg, hset]
  | addI x =>
    cases h
    simp only [readsOf, writesOf, List.forall_mem_singleton] at hreg hset
    simp only [exec, execAddI, State.setVF, hreg, State.setReg_i, State.setI_setReg, hset]
  | drw x y n =>
    simp only [readsOf, List.forall_mem_cons] at hreg
    obtain ⟨hx, hy, -⟩ := hreg
    exact execDrw_setReg_comm h hx hy fun e => hw (List.mem_singleton.mpr e)
  | skp x | sknp x =>
    cases h
    exact congrArg _ (State.keySkip_setReg s (hreg x (List.mem_singleton_self x)) _)
  | ldB x =>
    cases h
    simp only [readsOf, List.forall_mem_singleton] at hreg
    simp only [exec, execLdB, hreg, State.storeAtI_setReg]
  | storeRegs x =>
    cases h
    simp only [exec, execStoreRegs, State.regBlock_setReg s hr b, State.storeAtI_setReg]
  | loadRegs x => exact execLoadRegs_setReg_comm h hw b

theorem eq_of_mem_pair {x y : RegIx} (h : r ∈ [x, y]) (hx : r ≠ x) : r = y :=
  List.mem_singleton.mp ((List.mem_cons.mp h).resolve_left hx)

/-- The register is written and not read: the instruction overwrites the change, unless it halts. -/
theorem exec_setReg_overwritten (hr : r ∉ readsOf i) (hw : r ∈ (writesOf s i).regs) (h : exec i s = .next t)
    (ht : t.isHalted = false) (b : Byte) : exec i (s.setReg r b) = .next t := by
  have hreg := reg_setReg_of_not_read (s := s) (b := b) hr
  cases i with
  | ldImm x kk | rnd x kk | ldVxDT x | ldReg x y =>
    cases h
    cases List.mem_singleton.mp hw
    simp only [readsOf, List.forall_mem_singleton] at hreg
    simp only [exec, execLdImm, execRnd, execLdVxDT, execLdReg, hreg, State.setReg_setReg, State.setReg_pins, State.setReg_dt]
  | addImm x kk | orReg x y | andReg x y | xorReg x y =>
    cases List.mem_singleton.mp hw
    exact absurd List.mem_cons_self hr
  | sub x y | shr x ign | shl x ign | subn x y =>
    cases h
    cases eq_of_mem_pair hw fun e => hr (by simp [readsOf, e])
    simp only [readsOf, List.forall_mem_cons] at hreg
    simp only [exec, execSub, execShr, execShl, execSubn, hreg, State.setVF_setReg]
  | addReg x y =>
    cases h
    have hx : r ≠ x := fun e => hr (by simp [readsOf, e])
    cases eq_of_mem_pair hw hx
    simp only [readsOf, List.forall_mem_cons] at hreg
    simp only [exec, execAddReg, hreg]
    rw [State.setReg_comm s hx, State.setVF_setReg]
  | addI x =>
    cases h
    cases List.mem_singleton.mp hw
    simp only [readsOf, List.forall_mem_singleton] at hreg
    simp only [exec, execAddI, hreg, State.setReg_i, State.setI_setReg, State.setVF_setReg]
  | drw x y n =>
    cases List.mem_singleton.mp hw
    simp only [readsOf, List.forall_mem_cons] at hreg
    obtain ⟨hx, hy, -⟩ := hreg
    cases hf : spanFault s.base n.toNat with
    | some bad =>
      cases h.symm.trans (execDrw_fault x y hf)
      exact nomatch ht
    | none =>
      cases h.symm.trans (execDrw_fits x y hf)
      refine (execDrw_fits (s := s.setReg 15 b) x y hf).trans ?_
      rw [hx, hy, State.drawn_setReg]
  | loadRegs x =>
    cases hf : spanFault s.base (x.toNat + 1) with
    | some bad =>
      cases h.symm.trans (execLoadRegs_fault hf)
      exact nomatch ht
    | none =>
      cases h.symm.trans (execLoadRegs_fits hf)
      refine (execLoadRegs_fits (s := s.setReg r b) hf).trans (congrArg _ ?_)
      have hle := mem_regsUpTo.mp hw
      exact State.setRegBlock_setReg s (Nat.zero_le _) (by rw [State.loadBytes_length]; omega) b
  | _ => exact absurd hw List.not_mem_nil

/-- Settles O40: the one lemma for the registers left alone, the other for those overwritten. -/
theorem instructionsReadOnlyTheListedRegisters : Obligations.InstructionsReadOnlyTheListedRegisters :=
  fun _ _ _ _ b hr h => ⟨fun hw => exec_setReg_comm hr hw h b, fun hw _ ht => exec_setReg_overwritten hr hw h ht b⟩

end Sys2Proof.Machine
end

section
/-! SUPPORT. Memory (spec/20_memory.md): what a canonical list holds, and the transfers and the load at the end of the space. -/

namespace Sys2Proof.Machine

variable {font : Font} {s : State}

/-! The canonical form. -/

/-- A byte other than the one reset leaves is listed. -/
theorem Memory.mem_of_read_ne_initial {m : Memory} {a : Nat} (h : Memory.read font m a ≠ Memory.initial font a) :
    (a, Memory.read font m a) ∈ m := by
  unfold Memory.read at h ⊢
  cases hl : m.lookup a with
  | none => simp [hl] at h
  | some b =>
    obtain ⟨l, l', rfl, -⟩ := List.lookup_eq_some_iff.mp hl
    simp

/-- A canonical list holds exactly the bytes of the space that differ from what reset leaves. -/
theorem Memory.mem_iff_read {m : Memory} (h : Memory.wf font m) (c : Host.Cell) :
    c ∈ m ↔ c.1 < Config.memSize ∧ c.2 ≠ Memory.initial font c.1 ∧ Memory.read font m c.1 = c.2 := by
  obtain ⟨a, b⟩ := c
  constructor
  · intro hm
    obtain ⟨ha, hb⟩ := h.2 _ hm
    exact ⟨ha, hb, Memory.read_mem h hm⟩
  · rintro ⟨-, hb, hread⟩
    have hmem := Memory.mem_of_read_ne_initial (hread.trans_ne hb)
    rwa [hread] at hmem

/-- Settles O38: the two lists hold the same bytes, and rising addresses leave one order for them. -/
theorem canonicalMemoriesThatReadAlikeAreEqual : Obligations.CanonicalMemoriesThatReadAlikeAreEqual := by
  intro font m m' h h' hread
  have hmem : ∀ c : Host.Cell, c ∈ m ↔ c ∈ m' := fun c => by
    rw [Memory.mem_iff_read h, Memory.mem_iff_read h']
    exact and_congr_right fun hc => by rw [hread c.1 hc]
  have : Std.Antisymm fun c d : Host.Cell => c.1 < d.1 := ⟨fun _ _ hlt hgt => absurd hgt hlt.asymm⟩
  have : Std.Irrefl fun c d : Host.Cell => c.1 < d.1 := ⟨fun c => lt_irrefl c.1⟩
  exact h.1.eq_of_mem_iff h'.1 hmem

/-! The lowest address out of range. -/

/-- A span that is not empty and does not fit: the lowest address out of range. -/
theorem spanFault_eq_some {base len : Nat} (hlen : 0 < len) (h : Config.memSize < base + len) :
    spanFault base len = some (max base 4096) := by
  rw [spanFault_eq, if_pos ⟨hlen, h⟩]

/-- The lowest address out of range from `w` on, as the halt record holds it. -/
theorem ofNat_max_memSize (w : Word) : BitVec.ofNat 16 (max w.toNat 4096) = if w.toNat < 4096 then 4096 else w := by
  split
  · rw [Nat.max_eq_right (by omega)]
    rfl
  · rw [Nat.max_eq_left (by omega), BitVec.ofNat_toNat, BitVec.setWidth_eq]

/-! The load of a program. -/

theorem State.loadProgram_fits {bytes : List Byte} (hs : s.isHalted = false) (h : bytes.length ≤ 3584) :
    s.loadProgram bytes = s.storeBytes 0x200 bytes := by
  have hspan : spanFault 0x200 bytes.length = none := spanFault_eq_none.mpr (.inr (show _ ≤ 4096 by omega))
  simp [State.loadProgram, hs, hspan]

theorem State.loadProgram_tooLong {bytes : List Byte} (hs : s.isHalted = false) (h : 3584 < bytes.length) :
    s.loadProgram bytes = s.raiseAt s.pc .outOfRangeAddress 0x1000 := by
  have hspan : spanFault 0x200 bytes.length = some 4096 := spanFault_eq_some (by omega) (show 4096 < _ by omega)
  simp [State.loadProgram, hs, hspan]

/-- Settles O51: a program that fits is one store from the entry, with a store's effect; the other is raised. -/
theorem loadProgramWritesFromTheEntry : Obligations.LoadProgramWritesFromTheEntry := by
  intro s bytes hs
  refine ⟨fun hlen => ?_, fun hlen => State.loadProgram_tooLong hs hlen⟩
  rw [State.loadProgram_fits hs hlen]
  refine ⟨fun k hk => ?_, (Effect.storeBytes (List.Subset.refl _)).toFrame⟩
  rw [State.byteAt_storeBytes s (show _ ≤ 4096 by omega), if_pos (by omega)]
  simp [hk]

/-! Single bytes, the fetch and the transfers. -/

/-- Settles O7: the two branches of the address check. -/
theorem memReadChecksItsAddress : Obligations.MemReadChecksItsAddress := by
  intro s a
  exact ⟨fun h => if_pos (show a < 4096 by omega), fun h => if_neg (show ¬ a < 4096 by omega)⟩

/-- Settles O10: the halt of a failed fetch, after the sample; from 0xFFF the first address out of range is PC + 1. -/
theorem fetchOutOfRangeHalts : Obligations.FetchOutOfRangeHalts := by
  intro s hm hpc
  have hlast : s.pc = 0xFFF ↔ s.pc.toNat < 4096 := by bv_omega
  rw [step_error hm hpc, ofNat_max_memSize]
  simp only [hlast]
  rfl

theorem State.storeAtI_fault {bs : List Byte} {bad : Nat} (h : spanFault s.base bs.length = some bad) :
    s.storeAtI bs = s.raise .outOfRangeAddress (BitVec.ofNat 16 bad) := by
  rw [State.storeAtI, h]

/-- Settles O37: each of the four transfers fails its range check, which comes before every write. -/
theorem transfersOutOfRangeWriteNothing : Obligations.TransfersOutOfRangeWriteNothing := by
  intro x y n s t ht
  have hraise : s.raise .outOfRangeAddress (BitVec.ofNat 16 (max s.base 4096)) = t := by
    rw [ht, State.base, ofNat_max_memSize]
    rfl
  have hstore {bs : List Byte} (hlen : 0 < bs.length) (h : 4096 < s.base + bs.length) : s.storeAtI bs = t :=
    (State.storeAtI_fault (spanFault_eq_some hlen h)).trans hraise
  refine ⟨fun hn h => ?_, fun h => ?_, fun h => ⟨?_, ?_⟩⟩
  · have hpos : 0 < n.toNat := Nat.pos_of_ne_zero fun e => hn (BitVec.eq_of_toNat_eq e)
    exact (execDrw_fault x y (spanFault_eq_some hpos h)).trans (congrArg _ hraise)
  · exact congrArg _ (hstore (bs := bcdDigits (s.reg x)) (Nat.succ_pos 2) h)
  · have hlen := s.regBlock_length x
    exact congrArg _ (hstore (by omega) (show 4096 < s.i.toNat + _ by omega))
  · exact (execLoadRegs_fault (spanFault_eq_some (Nat.succ_pos _) (show 4096 < s.i.toNat + _ by omega))).trans
      (congrArg _ hraise)

end Sys2Proof.Machine
end

section
/-! SUPPORT. The decoder against the encoder and the opcode map (spec/30_encoding.md R91 to R99). -/

namespace Sys2Proof

variable {op : Word} {i : Instr}

/-! Decode after encode. -/

/-- Settles O2: the fields of a packed word are what was packed, so the decoder takes the arm of the instruction, in a family
after a second look at the low byte or nibble. -/
theorem decodeUndoesEncode : Obligations.DecodeUndoesEncode := by
  intro i
  cases i with
  | jp | call | ldI | jpV0 | seImm | sneImm | ldImm | addImm | rnd | seReg | sneReg | drw => simp [encode, decode]
  | cls | ret => simp [encode, decode, decodeFamily0]
  | ldReg | orReg | andReg | xorReg | addReg | sub | shr | subn | shl => simp [encode, decode, decodeFamily8]
  | skp | sknp => simp [encode, decode, decodeFamilyE]
  | ldVxDT | ldVxK | ldDTVx | ldSTVx | addI | ldF | ldB | storeRegs | loadRegs => simp [encode, decode, decodeFamilyF]

/-! Encode after decode: a word whose fixed fields have the numbers of a pattern is that pattern filled with its other fields. -/

theorem packNnn_of_fields {t : Nibble} (ht : (fieldT op).toNat = t.toNat) : packNnn t (fieldNnn op) = op := by
  rw [← BitVec.eq_of_toNat_eq ht, packNnn_fields]

theorem packXKk_of_fields {t : Nibble} {kk : Byte} (ht : (fieldT op).toNat = t.toNat)
    (hkk : (fieldKk op).toNat = kk.toNat) : packXKk t (fieldX op) kk = op := by
  rw [← BitVec.eq_of_toNat_eq ht, ← BitVec.eq_of_toNat_eq hkk, packXKk_fields]

theorem packXYN_of_fields {t n : Nibble} (ht : (fieldT op).toNat = t.toNat) (hn : (fieldN op).toNat = n.toNat) :
    packXYN t (fieldX op) (fieldY op) n = op := by
  rw [← BitVec.eq_of_toNat_eq ht, ← BitVec.eq_of_toNat_eq hn, packXYN_fields]

theorem encode_of_decodeFamily0 (ht : (fieldT op).toNat = 0x0) (h : decodeFamily0 op = some i) : encode i = op := by
  unfold decodeFamily0 at h
  split at h <;> cases h <;> exact packXKk_of_fields ht ‹_›

theorem encode_of_decodeFamily8 (ht : (fieldT op).toNat = 0x8) (h : decodeFamily8 op = some i) : encode i = op := by
  unfold decodeFamily8 at h
  split at h <;> cases h <;> exact packXYN_of_fields ht ‹_›

theorem encode_of_decodeFamilyE (ht : (fieldT op).toNat = 0xE) (h : decodeFamilyE op = some i) : encode i = op := by
  unfold decodeFamilyE at h
  split at h <;> cases h <;> exact packXKk_of_fields ht ‹_›

theorem encode_of_decodeFamilyF (ht : (fieldT op).toNat = 0xF) (h : decodeFamilyF op = some i) : encode i = op := by
  unfold decodeFamilyF at h
  split at h <;> cases h <;> exact packXKk_of_fields ht ‹_›

/-- Outside the four families a word has the one instruction of its primary nibble, which encodes to it. -/
theorem decode_cases (op : Word) :
    ((fieldT op).toNat ∉ [0x0, 0x8, 0xE, 0xF] ∧ ∃ i, decode op = some i ∧ encode i = op) ∨
    ((fieldT op).toNat = 0x0 ∧ decode op = decodeFamily0 op) ∨
    ((fieldT op).toNat = 0x8 ∧ decode op = decodeFamily8 op) ∨
    ((fieldT op).toNat = 0xE ∧ decode op = decodeFamilyE op) ∨
    ((fieldT op).toNat = 0xF ∧ decode op = decodeFamilyF op) := by
  unfold decode
  split
  case h_2 ht | h_3 ht | h_11 ht | h_12 ht => exact .inl ⟨by simp [ht], _, rfl, packNnn_of_fields ht⟩
  case h_4 ht | h_5 ht | h_7 ht | h_8 ht | h_13 ht => exact .inl ⟨by simp [ht], _, rfl, packXKk_of_fields ht rfl⟩
  case h_6 ht | h_10 ht | h_14 ht => exact .inl ⟨by simp [ht], _, rfl, packXYN_of_fields ht rfl⟩
  case h_1 ht | h_9 ht | h_15 ht => simp [ht]
  case h_16 =>
    have ht : (fieldT op).toNat = 0xF := by
      have := (fieldT op).isLt
      simp only [imp_false] at *
      omega
    simp [ht]

/-- Settles O3: in each family by its own lemma; elsewhere the one instruction of the primary nibble encodes to the word. -/
theorem encodeUndoesDecode : Obligations.EncodeUndoesDecode := by
  intro op i h
  rcases decode_cases op with ⟨-, j, hd, hj⟩ | ⟨ht, hd⟩ | ⟨ht, hd⟩ | ⟨ht, hd⟩ | ⟨ht, hd⟩
  · cases h.symm.trans hd
    exact hj
  · exact encode_of_decodeFamily0 ht (hd ▸ h)
  · exact encode_of_decodeFamily8 ht (hd ▸ h)
  · exact encode_of_decodeFamilyE ht (hd ▸ h)
  · exact encode_of_decodeFamilyF ht (hd ▸ h)

/-! The unknown opcodes: the families by their fields, then the fields as numbers. -/

theorem decodeFamily0_eq_none : decodeFamily0 op = none ↔ (fieldKk op).toNat ≠ 0xE0 ∧ (fieldKk op).toNat ≠ 0xEE := by
  unfold decodeFamily0
  split <;> simp_all

theorem decodeFamily8_eq_none :
    decodeFamily8 op = none ↔ (fieldN op).toNat ∈ [0x8, 0x9, 0xA, 0xB, 0xC, 0xD, 0xF] := by
  have := (fieldN op).isLt
  unfold decodeFamily8
  split <;> simp_all
  omega

theorem decodeFamilyE_eq_none : decodeFamilyE op = none ↔ (fieldKk op).toNat ≠ 0x9E ∧ (fieldKk op).toNat ≠ 0xA1 := by
  unfold decodeFamilyE
  split <;> simp_all

theorem decodeFamilyF_eq_none :
    decodeFamilyF op = none ↔ (fieldKk op).toNat ∉ [0x07, 0x0A, 0x15, 0x18, 0x1E, 0x29, 0x33, 0x55, 0x65] := by
  unfold decodeFamilyF
  split <;> simp_all

theorem fieldT_toNat (op : Word) : (fieldT op).toNat = op.toNat / 4096 := by
  have := op.isLt
  simp [fieldT, Nat.shiftRight_eq_div_pow]
  omega

theorem fieldKk_toNat (op : Word) : (fieldKk op).toNat = op.toNat % 256 := by
  simp [fieldKk]

theorem fieldN_toNat (op : Word) : (fieldN op).toNat = op.toNat % 16 := by
  simp [fieldN]

/-- Settles O4: a word of a family is unknown where its family knows no instruction, and every other word is known. -/
theorem unknownOpcodesAreTheListedOnes : Obligations.UnknownOpcodesAreTheListedOnes := by
  intro op
  rw [← fieldT_toNat, ← fieldKk_toNat, ← fieldN_toNat, ← decodeFamily0_eq_none, ← decodeFamily8_eq_none,
    ← decodeFamilyE_eq_none, ← decodeFamilyF_eq_none]
  rcases decode_cases op with ⟨ht, i, hd, -⟩ | ⟨ht, hd⟩ | ⟨ht, hd⟩ | ⟨ht, hd⟩ | ⟨ht, hd⟩
  · simp only [List.mem_cons, List.not_mem_nil, or_false, not_or] at ht
    simp [hd, ht]
  all_goals simp [hd, ht]

/-! The opcode map. -/

theorem rowOf_mem_opcodeTable (i : Instr) : rowOf i ∈ opcodeTable := by
  cases i <;> simp [opcodeTable, rowOf]

namespace Laws.RowMatch

/-- Every instruction's word lies in the instruction's own row. -/
theorem statement : ∀ i, Statement i
  | .cls a => cls a | .ret a => ret a | .jp a => jp a | .call a => call a | .seImm x k => seImm x k
  | .sneImm x k => sneImm x k | .seReg x y a => seReg x y a | .ldImm x k => ldImm x k | .addImm x k => addImm x k
  | .ldReg x y => ldReg x y | .orReg x y => orReg x y | .andReg x y => andReg x y | .xorReg x y => xorReg x y
  | .addReg x y => addReg x y | .sub x y => sub x y | .shr x a => shr x a | .subn x y => subn x y | .shl x a => shl x a
  | .sneReg x y a => sneReg x y a | .ldI a => ldI a | .jpV0 a => jpV0 a | .rnd x k => rnd x k | .drw x y n => drw x y n
  | .skp x => skp x | .sknp x => sknp x | .ldVxDT x => ldVxDT x | .ldVxK x => ldVxK x | .ldDTVx x => ldDTVx x
  | .ldSTVx x => ldSTVx x | .addI x => addI x | .ldF x => ldF x | .ldB x => ldB x | .storeRegs x => storeRegs x
  | .loadRegs x => loadRegs x

end Laws.RowMatch

/-! The three masks of the map: the fields of a selected word that the row fixes. -/

theorem fieldT_of_and_F000 {b : Word} (h : op &&& 0xF000 = b) : (fieldT op).toNat = b.toNat / 4096 := by
  rw [← packXYN_fields op, packXYN_mask] at h
  rw [← fieldT_toNat, ← h, fieldT_packXYN]

theorem fields_of_and_F0FF {b : Word} (h : op &&& 0xF0FF = b) :
    (fieldT op).toNat = b.toNat / 4096 ∧ (fieldKk op).toNat = b.toNat % 256 := by
  rw [← packXKk_fields op, packXKk_mask_low] at h
  rw [← fieldT_toNat, ← fieldKk_toNat, ← h, fieldT_packXKk, fieldKk_packXKk]
  exact ⟨rfl, rfl⟩

theorem fields_of_and_F00F {b : Word} (h : op &&& 0xF00F = b) :
    (fieldT op).toNat = b.toNat / 4096 ∧ (fieldN op).toNat = b.toNat % 16 := by
  rw [← packXYN_fields op, packXYN_mask_low] at h
  rw [← fieldT_toNat, ← fieldN_toNat, ← h, fieldT_packXYN, fieldN_packXYN]
  exact ⟨rfl, rfl⟩

/-- From a word that a row selects the decoder reads an instruction of that row. -/
theorem decode_of_selects {j : Instr} (h : (rowOf j).selects op = true) :
    ∃ i, decode op = some i ∧ rowOf i = rowOf j := by
  have h : op &&& (rowOf j).mask = (rowOf j).bits := beq_iff_eq.mp h
  cases j with
  | jp | call | ldI | jpV0 | seImm | sneImm | ldImm | addImm | rnd | seReg | sneReg | drw =>
    simp [decode, fieldT_of_and_F000 h, rowOf]
  | cls | ret =>
    obtain ⟨ht, hkk⟩ := fields_of_and_F0FF h
    simp [decode, decodeFamily0, ht, hkk, rowOf]
  | ldReg | orReg | andReg | xorReg | addReg | sub | shr | subn | shl =>
    obtain ⟨ht, hn⟩ := fields_of_and_F00F h
    simp [decode, decodeFamily8, ht, hn, rowOf]
  | skp | sknp =>
    obtain ⟨ht, hkk⟩ := fields_of_and_F0FF h
    simp [decode, decodeFamilyE, ht, hkk, rowOf]
  | ldVxDT | ldVxK | ldDTVx | ldSTVx | addI | ldF | ldB | storeRegs | loadRegs =>
    obtain ⟨ht, hkk⟩ := fields_of_and_F0FF h
    simp [decode, decodeFamilyF, ht, hkk, rowOf]

/-- Settles O5: a word that decodes is its instruction's word, which lies in the instruction's row; a row fixes the fields the
decoder looks at. -/
theorem opcodeMapSelectsOneRow : Obligations.OpcodeMapSelectsOneRow := by
  refine ⟨rfl, fun op => ⟨fun i h => ⟨rowOf_mem_opcodeTable i, ?_⟩, fun r hr h => ?_⟩⟩
  · rw [← encodeUndoesDecode op i h]
    exact Laws.RowMatch.statement i
  · obtain ⟨j, -, rfl⟩ := List.mem_map.mp hr
    exact decode_of_selects h

/-- Settles O1: the words are literals, so the decoder computes each. -/
theorem specExampleWordsDecode : Obligations.SpecExampleWordsDecode := by
  unfold Obligations.SpecExampleWordsDecode
  decide

/-! The ignored bits: each mask of R99 is one field of the word. -/

theorem and_0F00_eq_zero_iff : op &&& 0x0F00#16 = 0#16 ↔ fieldX op = 0#4 := by
  have h : op &&& 0x0F00#16 = (fieldX op).setWidth 16 <<< 8 :=
    BitVec.eq_of_getLsbD_eq fun k hk => by interval_cases k <;> simp [fieldX]
  rw [h]
  bv_omega

theorem and_00F0_eq_zero_iff : op &&& 0x00F0#16 = 0#16 ↔ fieldY op = 0#4 := by
  have h : op &&& 0x00F0#16 = (fieldY op).setWidth 16 <<< 4 :=
    BitVec.eq_of_getLsbD_eq fun k hk => by interval_cases k <;> simp [fieldY]
  rw [h]
  bv_omega

theorem and_000F_eq_zero_iff : op &&& 0x000F#16 = 0#16 ↔ fieldN op = 0#4 := by
  have h : op &&& 0x000F#16 = (fieldN op).setWidth 16 :=
    BitVec.eq_of_getLsbD_eq fun k hk => by interval_cases k <;> simp [fieldN]
  rw [h]
  bv_omega

/-- Settles O6: the words are those of the six instructions, `exec` takes no ignored bits, and each mask covers the field that
holds them. -/
theorem ignoredBitsDoNothing : Obligations.IgnoredBitsDoNothing := by
  intro x y a b s
  refine ⟨⟨decodeUndoesEncode (.cls a), rfl⟩, ⟨decodeUndoesEncode (.ret a), rfl⟩,
    ⟨decodeUndoesEncode (.seReg x y a), rfl⟩, ⟨decodeUndoesEncode (.sneReg x y a), rfl⟩,
    ⟨decodeUndoesEncode (.shr x a), rfl⟩, ⟨decodeUndoesEncode (.shl x a), rfl⟩, fun i => ?_⟩
  cases i with
  | cls | ret => simp [WellFormed, encode, and_0F00_eq_zero_iff]
  | shr | shl => simp [WellFormed, encode, and_00F0_eq_zero_iff]
  | seReg | sneReg => simp [WellFormed, encode, and_000F_eq_zero_iff]
  | _ => simp [WellFormed]

end Sys2Proof
end

section
/-! SUPPORT. The Step is total (spec/60_exceptions.md R220, R224). -/

namespace Sys2Proof.Machine

/-- Settles O12: in each case of a Step the next state is given, or it is the instruction's, and every instruction answers one. -/
theorem everyStepAnswersNext : Obligations.EveryStepAnswersNext := by
  intro s
  rcases step_cases s with ⟨_, -, h⟩ | ⟨_, -, h⟩ | ⟨-, -, h⟩ | ⟨-, -, _, -, -, h⟩ | ⟨-, -, _, i, -, -, h⟩
  case inr.inr.inr.inr =>
    obtain ⟨t, ht, -⟩ := exec_cases i s.sample.advancePc
    exact ⟨t, h.trans ht⟩
  all_goals exact ⟨_, h⟩

end Sys2Proof.Machine
end

section
/-! SUPPORT. Control transfer (spec/40_control_flow.md R120 to R127): the targets as numbers, the skips, CALL and RET. -/

namespace Sys2Proof.Machine

variable {w : Writes} {s : State}

/-! The targets, as numbers. -/

theorem addrOperand_toNat (nnn : Addr) : (addrOperand nnn).toNat = nnn.toNat :=
  BitVec.toNat_setWidth_of_le (by decide)

theorem zext16_toNat (b : Byte) : (zext16 b).toNat = b.toNat :=
  BitVec.toNat_setWidth_of_le (by decide)

/-- A 12-bit address plus a byte fits into 16 bits, so the sum of R127 never wraps. -/
theorem addrOperand_add_zext16_toNat (nnn : Addr) (b : Byte) :
    (addrOperand nnn + zext16 b).toNat = nnn.toNat + b.toNat := by
  have hn := nnn.isLt
  have hb := b.isLt
  have hlt : (addrOperand nnn).toNat + (zext16 b).toNat < 2 ^ 16 := by
    rw [addrOperand_toNat, zext16_toNat]
    omega
  rw [BitVec.toNat_add_of_lt hlt, addrOperand_toNat, zext16_toNat]

/-- Settles O17: both jumps are one write of PC, and the sum of JP V0 does not wrap. -/
theorem jumpsLandOnTheirTarget : Obligations.JumpsLandOnTheirTarget := by
  intro nnn s
  exact ⟨⟨_, rfl, addrOperand_toNat nnn, (Effect.setPc rfl _).toFrame⟩,
    ⟨_, rfl, addrOperand_add_zext16_toNat nnn _, (Effect.setPc rfl _).toFrame⟩⟩

/-- A skip moves PC past one instruction exactly when its condition holds, and writes nothing else. -/
theorem State.skipIf_spec (s : State) (c : Bool) :
    (s.skipIf c).pc = (if c then s.pc + 2 else s.pc) ∧ Frame { pc := true } s (s.skipIf c) :=
  ⟨by rw [State.skipIf_eq], (Effect.skipIf rfl c).toFrame⟩

/-- Settles O18: the four skips are `State.skipIf` of their condition, each comparison read as an equation. -/
theorem skipsPassOneInstruction : Obligations.SkipsPassOneInstruction := by
  intro x y kk ign s
  refine ⟨⟨_, rfl, ?_⟩, ⟨_, rfl, ?_⟩, ⟨_, rfl, ?_⟩, ⟨_, rfl, ?_⟩⟩
  · simpa using s.skipIf_spec (s.reg x == kk)
  · simpa using s.skipIf_spec (s.reg x != kk)
  · simpa using s.skipIf_spec (s.reg x == s.reg y)
  · simpa using s.skipIf_spec (s.reg x != s.reg y)

/-! The call stack. -/

/-- What CALL and RET do beside raising: the stack and PC are written, nothing else. -/
theorem Effect.setStack_setPc (hs : w.stack = true) (hp : w.pc = true) (ws : List Word) (a : Word) :
    Effect w s ({ s with stack := ws }.setPc a) :=
  (setStack hs ws).trans (setPc hp a)

theorem execRet_append {ws : List Word} {a : Word} (h : s.stack = ws ++ [a]) :
    execRet s = .next ({ s with stack := ws }.setPc a) := by
  rw [execRet, State.pop_append s ws a h]

/-- Settles O19: CALL with room and CALL on a full stack. -/
theorem callPushesTheReturnAddress : Obligations.CallPushesTheReturnAddress := by
  intro nnn s
  constructor
  · intro hroom
    exact ⟨_, execCall_room nnn hroom, rfl, addrOperand_toNat nnn, (Effect.setStack_setPc rfl rfl _ _).toFrame⟩
  · intro hfull
    exact execCall_full nnn hfull

/-- Settles O20: RET with a return address and RET on an empty stack. -/
theorem returnPopsTheStack : Obligations.ReturnPopsTheStack := by
  intro ign s
  constructor
  · intro ws a hstack
    exact ⟨_, execRet_append hstack, rfl, rfl, (Effect.setStack_setPc rfl rfl _ _).toFrame⟩
  · intro hempty
    exact execRet_empty hempty

/-- Settles O21: the stack the CALL left is the old one with the return address on top, and RET takes that off again. -/
theorem returnUndoesCall : Obligations.ReturnUndoesCall := by
  intro nnn ign s t u hroom hcall hstack
  cases (execCall_room nnn hroom).symm.trans hcall
  exact ⟨_, execRet_append hstack, rfl, rfl⟩

end Sys2Proof.Machine
end

section
/-! SUPPORT. The ALU (spec/41_alu.md R139 to R151): results and flags as numbers, then the shapes an ALU instruction has: one
register written, VF written twice, or VF and another register. -/

namespace Sys2Proof.Machine

variable {s : State} {i : Instr} {x : RegIx} {f b : Byte} {n m : Nat}

/-! The flags and the results, as numbers. -/

theorem flag_toNat (p : Bool) : (flag p).toNat = p.toNat := by
  cases p <;> rfl

theorem flag_decide_toNat (p : Prop) [Decidable p] : (flag (decide p)).toNat = if p then 1 else 0 := by
  rw [flag_toNat, Bool.toNat, Bool.cond_decide]

theorem carryFlag_toNat (a b : Byte) : (carryFlag a b).toNat = if a.toNat + b.toNat > 255 then 1 else 0 :=
  flag_decide_toNat _

theorem notBorrowFlag_toNat (a b : Byte) : (notBorrowFlag a b).toNat = if a.toNat > b.toNat then 1 else 0 :=
  flag_decide_toNat _

theorem lowBitFlag_toNat (a : Byte) : (lowBitFlag a).toNat = a.toNat % 2 := by
  rw [lowBitFlag, flag_toNat, BitVec.getLsbD, Nat.toNat_testBit, pow_zero, Nat.div_one]

/-- Bit 7 is the top bit of a byte, so it is the whole quotient by 128. -/
theorem highBitFlag_toNat (a : Byte) : (highBitFlag a).toNat = a.toNat / 128 := by
  have ha := a.isLt
  rw [highBitFlag, flag_toNat, BitVec.getLsbD, Nat.toNat_testBit]
  omega

/-- The difference modulo 256, with nothing truncated at zero. -/
theorem Byte.sub_toNat (a b : Byte) : (a - b).toNat = (a.toNat + 256 - b.toNat) % 256 := by
  have hb := b.isLt
  rw [BitVec.toNat_sub]
  omega

/-- The difference by whether it borrows (R147, R149). -/
theorem Byte.sub_toNat_ite (a b : Byte) :
    (a - b).toNat = if a.toNat ≥ b.toNat then a.toNat - b.toNat else a.toNat + 256 - b.toNat := by
  have ha := a.isLt
  rw [Byte.sub_toNat]
  split <;> omega

theorem Byte.ushiftRight_one_toNat (a : Byte) : (a >>> 1).toNat = a.toNat / 2 := by
  rw [BitVec.toNat_ushiftRight, Nat.shiftRight_one]

theorem Byte.shiftLeft_one_toNat (a : Byte) : (a <<< 1).toNat = 2 * a.toNat % 256 := by
  rw [BitVec.toNat_shiftLeft, Nat.shiftLeft_eq, pow_one, Nat.mul_comm]

/-! The shapes. -/

theorem State.setReg_frame (s : State) (x : RegIx) (b : Byte) : Frame { regs := [x] } s (s.setReg x b) :=
  (Effect.setReg (List.mem_singleton_self x) b).toFrame

theorem State.setVF_setReg_frame (s : State) (x : RegIx) (f b : Byte) :
    Frame { regs := [x, 15] } s ((s.setVF f).setReg x b) :=
  ((Effect.setVF (by simp) f).trans (.setReg (by simp) b)).toFrame

/-- Where both writes go to VF the result, written last, stays (92 D7). -/
theorem State.setReg_setVF (s : State) (f b : Byte) : (s.setVF f).setReg 15 b = s.setReg 15 b := s.setReg_setReg 15 f b

/-- An instruction that writes one register. -/
theorem exec_setReg_toNat (h : exec i s = .next (s.setReg x b)) (hb : b.toNat = n) :
    ∃ t, exec i s = .next t ∧ (t.reg x).toNat = n ∧ Frame { regs := [x] } s t := by
  refine ⟨_, h, ?_, s.setReg_frame x b⟩
  rw [State.reg_setReg_same, hb]

/-- An instruction that writes a flag and then a result to VF. -/
theorem exec_setVF_setReg_15_toNat (h : exec i s = .next ((s.setVF f).setReg 15 b)) (hb : b.toNat = n) :
    ∃ t, exec i s = .next t ∧ (t.reg 15).toNat = n ∧ Frame { regs := [15] } s t :=
  exec_setReg_toNat (h.trans (congrArg Host.Outcome.next (s.setReg_setVF f b))) hb

/-- An instruction that writes a flag and a result, the result not to VF. -/
theorem exec_setVF_setReg_toNat (h : exec i s = .next ((s.setVF f).setReg x b)) (hx : x ≠ 15) (hb : b.toNat = n)
    (hf : f.toNat = m) :
    ∃ t, exec i s = .next t ∧ (t.reg x).toNat = n ∧ (t.reg 15).toNat = m ∧ Frame { regs := [x, 15] } s t := by
  refine ⟨_, h, ?_, ?_, s.setVF_setReg_frame x f b⟩
  · rw [State.reg_setReg_same, hb]
  · rw [State.reg_setReg_ne _ _ hx.symm, State.reg_setVF, if_pos rfl, hf]

/-- Settles O23: the operations without a flag write one register; the others write VF too, and ADD, which writes it last,
ends in the same state as if it had written it first. -/
theorem aluLaws : Obligations.AluLaws := by
  rintro x y kk ign s _ _ rfl rfl
  refine ⟨?addImm, ?orReg, ?andReg, ?xorReg, fun hx => ⟨?addReg, ?sub, ?shr, ?shl⟩, fun hy => ?subn⟩
  case addImm => exact exec_setReg_toNat rfl (BitVec.toNat_add _ _)
  case orReg =>
    refine ⟨_, rfl, fun k => ?_, s.setReg_frame x _⟩
    rw [State.reg_setReg_same, BitVec.getLsbD_or]
  case andReg =>
    refine ⟨_, rfl, fun k => ?_, s.setReg_frame x _⟩
    rw [State.reg_setReg_same, BitVec.getLsbD_and]
  case xorReg =>
    refine ⟨_, rfl, fun k => ?_, s.setReg_frame x _⟩
    rw [State.reg_setReg_same, BitVec.getLsbD_xor]
  case addReg =>
    have hexec : exec (.addReg x y) s = .next ((s.setVF (carryFlag (s.reg x) (s.reg y))).setReg x (s.reg x + s.reg y)) :=
      congrArg Host.Outcome.next (s.setVF_setReg_comm hx _ _)
    exact exec_setVF_setReg_toNat hexec hx (BitVec.toNat_add _ _) (carryFlag_toNat _ _)
  case sub => exact exec_setVF_setReg_toNat rfl hx (Byte.sub_toNat_ite _ _) (notBorrowFlag_toNat _ _)
  case shr => exact exec_setVF_setReg_toNat rfl hx (Byte.ushiftRight_one_toNat _) (lowBitFlag_toNat _)
  case shl => exact exec_setVF_setReg_toNat rfl hx (Byte.shiftLeft_one_toNat _) (highBitFlag_toNat _)
  case subn => exact exec_setVF_setReg_toNat rfl hy (Byte.sub_toNat_ite _ _) (notBorrowFlag_toNat _ _)

/-- Settles O22: each of the three is one register write. -/
theorem loadsWriteOneRegister : Obligations.LoadsWriteOneRegister := by
  intro x y kk s
  refine ⟨⟨_, rfl, s.reg_setReg_same x kk, s.setReg_frame x kk⟩, ⟨_, rfl, s.reg_setReg_same x _, s.setReg_frame x _⟩,
    ⟨_, rfl, fun k => ?_, s.setReg_frame x _⟩⟩
  rw [State.reg_setReg_same, BitVec.getLsbD_and]

/-- Settles O24: of two writes to VF the later one stays, which is the carry in ADD and the result in the others. -/
theorem flagRegisterAsDestination : Obligations.FlagRegisterAsDestination := by
  rintro r ign s _ _ rfl rfl
  refine ⟨?addReg, ?sub, ?subn, ?shr, ?shl⟩
  case addReg => exact exec_setReg_toNat (congrArg Host.Outcome.next (s.setVF_setReg _ _)) (carryFlag_toNat _ _)
  case sub => exact exec_setVF_setReg_15_toNat rfl (Byte.sub_toNat _ _)
  case subn => exact exec_setVF_setReg_15_toNat rfl (Byte.sub_toNat _ _)
  case shr => exact exec_setVF_setReg_15_toNat rfl (Byte.ushiftRight_one_toNat _)
  case shl => exact exec_setVF_setReg_15_toNat rfl (Byte.shiftLeft_one_toNat _)

end Sys2Proof.Machine
end

section
/-! SUPPORT. The display instructions (spec/42_display.md R160 to R164): what a draw in range leaves, pixel by pixel, and what
a second draw of the same sprite at the same place does to that. -/

namespace Sys2Proof.Machine

variable {s : State} {a b : Byte} {n : Nibble}

/-- Settles O25: CLS replaces the display by the clear one, and nothing else. -/
theorem clearUnsetsEveryPixel : Obligations.ClearUnsetsEveryPixel := by
  intro ign s
  exact ⟨_, rfl, Display.pixel_clear, (Effect.setDisp rfl _).toFrame⟩

/-! One draw. -/

theorem flag_eq_zero_or_one (p : Bool) : flag p = 0 ∨ flag p = 1 := by
  cases p
  · exact .inl rfl
  · exact .inr rfl

theorem flag_eq_one {p : Bool} : flag p = 1 ↔ p = true := by
  cases p <;> decide

/-- The places under a 1 bit of the sprite that a draw at column `a`, row `b` with `n` rows takes from memory at I. -/
def State.DrawCovers (s : State) (a b : Byte) (n : Nibble) : Fin 32 → Fin 64 → Prop :=
  SpriteCovers a.toNat b.toNat (s.loadBytes s.base n.toNat)

theorem State.drawCovers_iff {r : Fin 32} {c : Fin 64} :
    s.DrawCovers a b n r c ↔ ∃ j < n.toNat, ∃ i < 8, (s.byteAt (s.i.toNat + j)).getLsbD (7 - i) = true ∧
      r.val = (b.toNat + j) % 32 ∧ c.val = (a.toNat + i) % 64 := by
  simp only [State.DrawCovers, SpriteCovers, RowCovers, wrapRow, wrapCol, Fin.ext_iff, Fin.val_ofNat, State.loadBytes,
    State.base, List.length_map, List.length_range, List.getElem_map, List.getElem_range]
  constructor
  · rintro ⟨j, hj, hr, i, hi, hbit, hc⟩
    exact ⟨j, hj, i, hi, hbit, hr, hc⟩
  · rintro ⟨j, hj, i, hi, hbit, hr, hc⟩
    exact ⟨j, hj, hr, i, hi, hbit, hc⟩

/-- A sprite has at most 15 rows, so no two of them share a display row. -/
theorem State.sprite_length_le (s : State) (n : Nibble) : (s.loadBytes s.base n.toNat).length ≤ 32 := by
  have hn := n.isLt
  rw [State.loadBytes_length]
  omega

open Classical in
/-- A draw toggles the covered places (R161, R163). -/
theorem State.drawn_pixel (s : State) (a b : Byte) (n : Nibble) (r : Fin 32) (c : Fin 64) :
    (s.drawn a b n).disp.pixel r c = (s.disp.pixel r c ^^ decide (s.DrawCovers a b n r c)) :=
  (s.disp.drawSprite_spec a.toNat b.toNat _ (s.sprite_length_le n)).1 r c

theorem State.drawn_pixel_ne (s : State) (a b : Byte) (n : Nibble) (r : Fin 32) (c : Fin 64) :
    (s.drawn a b n).disp.pixel r c ≠ s.disp.pixel r c ↔ s.DrawCovers a b n r c := by
  classical
  rw [State.drawn_pixel]
  by_cases hc : s.DrawCovers a b n r c
  · simp [hc]
  · simp [hc]

theorem State.drawn_reg (s : State) (a b : Byte) (n : Nibble) {x : RegIx} (hx : x ≠ 15) :
    (s.drawn a b n).reg x = s.reg x :=
  State.reg_setReg_ne _ _ hx

theorem State.drawn_reg_15 (s : State) (a b : Byte) (n : Nibble) :
    (s.drawn a b n).reg 15 = flag (s.disp.drawSprite a.toNat b.toNat (s.loadBytes s.base n.toNat)).2 :=
  State.reg_setReg_same _ _ _

/-- The collision flag (R163): a place that was set is covered, which is to say, it has become unset. -/
theorem State.drawn_reg_15_eq_one (s : State) (a b : Byte) (n : Nibble) :
    (s.drawn a b n).reg 15 = 1 ↔ ∃ r c, s.disp.pixel r c = true ∧ (s.drawn a b n).disp.pixel r c = false := by
  classical
  have hhit := (s.disp.drawSprite_spec a.toNat b.toNat _ (s.sprite_length_le n)).2
  rw [State.drawn_reg_15, flag_eq_one, hhit, decide_eq_true_iff]
  refine exists_congr fun r => exists_congr fun c => ?_
  rw [and_comm]
  refine and_congr_right fun hset => ?_
  rw [← Bool.not_eq_true, ← hset]
  exact (s.drawn_pixel_ne a b n r c).symm

theorem State.drawn_frame (s : State) (a b : Byte) (n : Nibble) :
    Frame { regs := [15], disp := true } s (s.drawn a b n) :=
  ((Effect.setDisp rfl _).trans (.setVF (List.mem_singleton_self _) _)).toFrame

/-- A draw whose rows are in range. -/
theorem exec_drw_fits (x y : RegIx) (h : n = 0 ∨ s.i.toNat + n.toNat ≤ 4096) :
    exec (.drw x y n) s = .next (s.drawn (s.reg x) (s.reg y) n) :=
  execDrw_fits x y (spanFault_eq_none.mpr (h.imp_left (congrArg BitVec.toNat)))

/-- Settles O26: the covered places are toggled, and a set one among them makes the flag 1. -/
theorem drawTogglesTheCoveredPixels : Obligations.DrawTogglesTheCoveredPixels := by
  intro x y n s hfits
  refine ⟨_, exec_drw_fits x y hfits, fun r c => ?_, ?_, s.drawn_reg_15_eq_one _ _ n, s.drawn_frame _ _ n⟩
  · rw [State.drawn_pixel_ne, State.drawCovers_iff]
  · rw [State.drawn_reg_15]
    exact flag_eq_zero_or_one _

/-! The same draw again. -/

/-- A draw leaves the sprite in memory, so a second one covers the same places, and toggling twice restores them (R164). -/
theorem State.drawn_drawn_disp (s : State) (a b : Byte) (n : Nibble) : ((s.drawn a b n).drawn a b n).disp = s.disp := by
  classical
  refine Display.pixel_ext fun r c => ?_
  have hsame : (s.drawn a b n).DrawCovers a b n r c ↔ s.DrawCovers a b n r c := Iff.rfl
  rw [State.drawn_pixel, State.drawn_pixel, decide_eq_decide.mpr hsame, Bool.xor_assoc, Bool.xor_self, Bool.xor_false]

/-- Settles O27: the second draw undoes the first, so it unsets exactly what the first one had set. -/
theorem drawingTwiceRestoresTheDisplay : Obligations.DrawingTwiceRestoresTheDisplay := by
  intro x y n s t hfits hdraw hx hy
  cases (exec_drw_fits x y hfits).symm.trans hdraw
  have hagain := exec_drw_fits (s := s.drawn (s.reg x) (s.reg y) n) x y hfits
  rw [hx, hy] at hagain
  have hback := s.drawn_drawn_disp (s.reg x) (s.reg y) n
  refine ⟨fun hflag => ?_, _, hagain, hback, ?_⟩
  · obtain ⟨r, c, hset, -⟩ := (s.drawn_reg_15_eq_one _ _ n).mp hflag
    exact ⟨r, c, hset⟩
  · rw [State.drawn_reg_15_eq_one, hback]
    simp only [and_comm]

theorem Byte.ne_zero_iff (b : Byte) : b ≠ 0 ↔ ∃ i < 8, b.getLsbD (7 - i) = true := by
  constructor
  · intro hb
    by_contra hnone
    refine hb (BitVec.eq_of_getLsbD_eq fun k hk => ?_)
    have hk7 : 7 - (7 - k) = k := by omega
    refine (Bool.eq_false_iff.mpr fun hbit => ?_).trans BitVec.getLsbD_zero.symm
    exact hnone ⟨7 - k, by omega, hk7.symm ▸ hbit⟩
  · rintro ⟨i, -, hbit⟩ rfl
    exact nomatch hbit.symm.trans BitVec.getLsbD_zero

/-- A sprite covers a place exactly when one of its bytes has a 1 bit: wrapping leaves no pixel of it off the display. -/
theorem State.exists_drawCovers (s : State) (a b : Byte) (n : Nibble) :
    (∃ r c, s.DrawCovers a b n r c) ↔ ∃ j < n.toNat, s.byteAt (s.i.toNat + j) ≠ 0 := by
  simp only [State.drawCovers_iff, Byte.ne_zero_iff]
  constructor
  · rintro ⟨r, c, j, hj, i, hi, hbit, -, -⟩
    exact ⟨j, hj, i, hi, hbit⟩
  · rintro ⟨j, hj, i, hi, hbit⟩
    exact ⟨wrapRow (b.toNat + j), wrapCol (a.toNat + i), j, hj, i, hi, hbit, rfl, rfl⟩

/-- After a draw that hit nothing, the places it has set are all those it covers. -/
theorem State.drawn_clean_sets_iff (hflag : (s.drawn a b n).reg 15 = 0) (r : Fin 32) (c : Fin 64) :
    s.disp.pixel r c = false ∧ (s.drawn a b n).disp.pixel r c = true ↔ s.DrawCovers a b n r c := by
  have hclean : ¬ (s.disp.pixel r c = true ∧ (s.drawn a b n).disp.pixel r c = false) := fun hhit =>
    absurd (hflag.symm.trans ((s.drawn_reg_15_eq_one a b n).mpr ⟨r, c, hhit⟩)) (by decide)
  rw [← State.drawn_pixel_ne]
  constructor
  · rintro ⟨hunset, hset⟩
    rw [hunset, hset]
    decide
  · intro hne
    have hunset : s.disp.pixel r c = false := Bool.eq_false_iff.mpr fun hset =>
      hclean ⟨hset, Bool.eq_false_iff.mpr fun hkept => hne (hkept.trans hset.symm)⟩
    exact ⟨hunset, Bool.eq_true_of_not_eq_false fun hkept => hne (hkept.trans hunset.symm)⟩

/-- Settles O53: what the first draw has set is all that the sprite covers, and the second one unsets it. -/
theorem secondDrawAfterACleanFirst : Obligations.SecondDrawAfterACleanFirst := by
  intro x y n s t hfits hdraw hx hy hflag
  obtain ⟨-, u, hagain, hback, hsecond⟩ := drawingTwiceRestoresTheDisplay x y n s t hfits hdraw hx hy
  refine ⟨u, hagain, hback, hsecond.trans ?_⟩
  cases (exec_drw_fits x y hfits).symm.trans hdraw
  simp only [State.drawn_clean_sets_iff hflag, State.exists_drawCovers]

/-! R164's closing inference. -/

/-- The machine after reset, but with every pixel set. -/
def State.fullScreen : State := { State.reset with disp := Vector.replicate 32 (BitVec.allOnes 64) }

theorem State.fullScreen_pixel (r : Fin 32) (c : Fin 64) : State.fullScreen.disp.pixel r c = true := by
  simp only [State.fullScreen, Display.pixel, Fin.getElem_fin, Vector.getElem_replicate, BitVec.getLsbD_allOnes]
  exact decide_eq_true c.isLt

/-- The glyph of the digit 0 stands at address 0, and its first row is not empty. -/
theorem State.fullScreen_byteAt_zero : State.fullScreen.byteAt 0 ≠ 0 := by decide

/-- Refutes O28: on the full screen the first draw of the glyph of 0 sets nothing, so the second one unsets nothing, though the
glyph has 1 bits. -/
theorem not_secondDrawCollidesWheneverTheSpriteHasABit :
    ¬ Obligations.SecondDrawCollidesWheneverTheSpriteHasABit := by
  intro h
  have hfits : (5 : Nibble) = 0 ∨ State.fullScreen.i.toNat + (5 : Nibble).toNat ≤ 4096 := by decide
  have hfirst := exec_drw_fits 0 0 hfits
  have hkept := State.fullScreen.drawn_reg (State.fullScreen.reg 0) (State.fullScreen.reg 0) 5 (x := 0) (by decide)
  obtain ⟨-, u, hsecond, -, hflag⟩ := drawingTwiceRestoresTheDisplay 0 0 5 _ _ hfits hfirst hkept hkept
  have hcollides := (h 0 0 5 _ _ u hfits hfirst hkept hkept hsecond).mpr ⟨0, by decide, State.fullScreen_byteAt_zero⟩
  obtain ⟨r, c, hunset, -⟩ := hflag.mp hcollides
  exact nomatch hunset.symm.trans (State.fullScreen_pixel r c)

end Sys2Proof.Machine
end

section
/-! SUPPORT. Key input and the timers (spec/43_input_timers.md R179 to R186): the poll, the key skips, the timer moves. -/

namespace Sys2Proof.Machine

variable {w : Writes} {s : State} {x : RegIx}

/-! The poll. -/

theorem Effect.setRunning (hw : w.mode = true) : Effect w s { s with mode := .running } :=
  { Effect.refl w s with mode := fun e => (nomatch hw.symm.trans e), live := fun _ => rfl }

/-- The end of a wait writes the target and MODE, and nothing else. -/
theorem State.setReg_setRunning_frame (s : State) (t : RegIx) (b : Byte) :
    Frame { regs := [t], mode := true } s { s.setReg t b with mode := .running } :=
  ((Effect.setReg (List.mem_singleton_self t) b).trans (.setRunning rfl)).toFrame

/-- The index of a key fits into a byte, so the poll stores it whole. -/
theorem ofNat_key_toNat {k : Nat} (hk : k < 16) : (BitVec.ofNat 8 k).toNat = k := by
  rw [BitVec.toNat_ofNat, Nat.mod_eq_of_lt (by omega)]

/-- Settles O11: a Step in WaitKey is one poll of the sampled keys, which finds none or the least one held. -/
theorem waitKeyStepPollsTheKeys : Obligations.WaitKeyStepPollsTheKeys := by
  intro s t hm
  constructor
  · intro hnone
    rw [step_waitKey hm, s.sample.poll_none t hnone]
  · intro k hk hheld hleast
    refine ⟨_, (step_waitKey hm).trans (congrArg _ (s.sample.poll_some t hk hheld hleast)), ?_, rfl,
      s.sample.setReg_setRunning_frame t _⟩
    exact (congrArg BitVec.toNat (s.sample.reg_setReg_same t _)).trans (ofNat_key_toNat hk)

/-! The key skips. -/

theorem State.keySkip_of_le (h : (s.reg x).toNat ≤ 15) (held : Bool) :
    s.keySkip x held = s.skipIf (s.keyHeld (s.reg x).toNat == held) :=
  if_neg (Nat.not_lt.mpr h)

theorem State.keySkip_of_gt (h : 15 < (s.reg x).toNat) (held : Bool) :
    s.keySkip x held = s.raise .keyIndexOutOfRange (zext16 (s.reg x)) :=
  if_pos h

/-- A key skip with its index in range moves PC past one instruction exactly when the key has the wanted level, and writes nothing
else. -/
theorem State.keySkip_spec (h : (s.reg x).toNat ≤ 15) (held : Bool) :
    (s.keySkip x held).pc = (if s.pins.keys.getLsbD (s.reg x).toNat == held then s.pc + 2 else s.pc) ∧
      Frame { pc := true } s (s.keySkip x held) := by
  rw [State.keySkip_of_le h]
  exact s.skipIf_spec _

/-- Settles O29: with the index in range the two skips want opposite levels; out of range they raise alike. -/
theorem keySkipsReadTheSampledLevel : Obligations.KeySkipsReadTheSampledLevel := by
  intro x s
  constructor
  · intro hle
    obtain ⟨hskp, hskpFrame⟩ := State.keySkip_spec hle true
    obtain ⟨hsknp, hsknpFrame⟩ := State.keySkip_spec hle false
    refine ⟨⟨_, rfl, ?_, hskpFrame⟩, ⟨_, rfl, ?_, hsknpFrame⟩⟩
    · simpa using hskp
    · cases hkey : s.pins.keys.getLsbD (s.reg x).toNat <;> simpa [hkey] using hsknp
  · intro hgt
    refine ⟨_, congrArg Host.Outcome.next (State.keySkip_of_gt hgt true),
      congrArg Host.Outcome.next (State.keySkip_of_gt hgt false), ?_⟩
    rw [BitVec.ofNat_toNat]
    rfl

/-! The timer moves and the start of a wait. -/

/-- Settles O30: each move is one write, of a register or of a timer. -/
theorem timerMovesCopyOneByte : Obligations.TimerMovesCopyOneByte := by
  intro x s
  exact ⟨⟨_, rfl, s.reg_setReg_same x s.dt, s.setReg_frame x s.dt⟩, ⟨_, rfl, rfl, (Effect.setDt rfl _).toFrame⟩,
    ⟨_, rfl, rfl, (Effect.setSt rfl _).toFrame⟩⟩

/-- Settles O31: the one write is that of MODE. -/
theorem waitForKeyEntersTheWait : Obligations.WaitForKeyEntersTheWait := by
  intro x s
  exact ⟨_, rfl, rfl, (Effect.waitKey rfl x).toFrame⟩

end Sys2Proof.Machine
end

section
/-! SUPPORT. I and memory through I (spec/44_index_memory.md R199 to R205): the values as numbers, the transfers in range. -/

namespace Sys2Proof.Machine

variable {s : State} {x : RegIx}

/-! The values, as numbers. -/

theorem indexOverflowFlag_toNat (i : Word) (a : Byte) :
    (indexOverflowFlag i a).toNat = if i.toNat + a.toNat > 0xFFFF then 1 else 0 :=
  flag_decide_toNat _

theorem add_zext16_toNat (w : Word) (b : Byte) : (w + zext16 b).toNat = (w.toNat + b.toNat) % 65536 := by
  rw [BitVec.toNat_add, zext16_toNat]

/-- Five times a byte fits into 16 bits, so LD F never wraps (R202). -/
theorem fontAddress_toNat (a : Byte) : (fontAddress a).toNat = 5 * a.toNat := by
  have hlt : a.toNat * 5 < 2 ^ 16 := by have ha := a.isLt; omega
  exact (Nat.mod_eq_of_lt hlt).trans (Nat.mul_comm _ _)

/-- What ADD I writes: I and VF. -/
theorem State.setI_setVF_frame (s : State) (w : Word) (f : Byte) :
    Frame { i := true, regs := [15] } s ((s.setI w).setVF f) :=
  ((Effect.setI rfl w).trans (.setVF (List.mem_singleton_self _) f)).toFrame

/-- Settles O32: each of the three writes I, and ADD I also the flag of the sum. -/
theorem indexRegisterWrites : Obligations.IndexRegisterWrites := by
  intro nnn x s
  refine ⟨?ldI, ?addI, ?ldF⟩
  case ldI => exact ⟨_, rfl, addrOperand_toNat nnn, (Effect.setI rfl _).toFrame⟩
  case addI =>
    refine ⟨_, rfl, add_zext16_toNat s.i _, ?_, s.setI_setVF_frame _ _⟩
    rw [State.reg_setVF, if_pos rfl, indexOverflowFlag_toNat]
  case ldF => exact ⟨_, rfl, fontAddress_toNat _, (Effect.setI rfl _).toFrame⟩

/-! A store through I. -/

theorem State.storeAtI_fits {bs : List Byte} (h : s.base + bs.length ≤ Config.memSize) :
    s.storeAtI bs = s.storeBytes s.base bs := by
  rw [State.storeAtI, spanFault_eq_none.mpr (.inr h)]

theorem State.byteAt_storeBytes_add (s : State) {a k : Nat} {bs : List Byte} {b : Byte}
    (ha : a + bs.length ≤ Config.memSize) (hb : bs[k]? = some b) : (s.storeBytes a bs).byteAt (a + k) = b := by
  rw [State.byteAt_storeBytes s ha, if_pos (Nat.le_add_right a k), Nat.add_sub_cancel_left, hb, Option.getD_some]

/-- An instruction that stores bytes at I, in range: each byte is in its place, and no other address is written. -/
theorem exec_storeAtI_fits {i : Instr} {bs : List Byte} (hexec : exec i s = .next (s.storeAtI bs))
    (h : s.i.toNat + bs.length ≤ 4096) :
    ∃ t, exec i s = .next t ∧ (∀ k b, bs[k]? = some b → t.byteAt (s.i.toNat + k) = b) ∧
      Frame { mem := span s.i.toNat bs.length } s t :=
  ⟨_, hexec.trans (congrArg _ (State.storeAtI_fits h)), fun _ _ hb => s.byteAt_storeBytes_add h hb,
    (Effect.storeBytes (List.Subset.refl _)).toFrame⟩

/-- Settles O33: the three bytes LD B stores are the decimal digits, and none of them is cut. -/
theorem bcdStoresTheDecimalDigits : Obligations.BcdStoresTheDecimalDigits := by
  intro x s h
  obtain ⟨t, hexec, hbytes, hframe⟩ := exec_storeAtI_fits (bs := bcdDigits (s.reg x)) (i := .ldB x) rfl h
  have hv := (s.reg x).isLt
  refine ⟨t, (s.reg x).toNat / 100, (s.reg x).toNat / 10 % 10, (s.reg x).toNat % 10, hexec, by omega, by omega, by omega,
    by omega, ?_, ?_, ?_, hframe⟩
  · exact (congrArg BitVec.toNat (hbytes 0 _ rfl)).trans (Nat.mod_eq_of_lt (by omega))
  · exact (congrArg BitVec.toNat (hbytes 1 _ rfl)).trans (Nat.mod_eq_of_lt (by omega))
  · exact (congrArg BitVec.toNat (hbytes 2 _ rfl)).trans (Nat.mod_eq_of_lt (by omega))

/-! The block transfers. -/

/-- Settles O34: LD [I],Vx is a store of the register block, whose byte `k` is `V[k]`. -/
theorem storeWritesTheRegisterBlock : Obligations.StoreWritesTheRegisterBlock := by
  intro x s h
  have hlen := s.regBlock_length x
  obtain ⟨t, hexec, hbytes, hframe⟩ := exec_storeAtI_fits (bs := s.regBlock x) (i := .storeRegs x) rfl (by omega)
  rw [hlen] at hframe
  refine ⟨t, hexec, fun k hk => ?_, hframe⟩
  rw [hbytes k.toNat _ (s.regBlock_get x (Nat.lt_succ_of_le hk)), BitVec.ofNat_toNat, BitVec.setWidth_eq]

theorem State.reg_setRegBlock_loadBytes (s : State) (a : Nat) {k : RegIx} (hk : k.toNat ≤ x.toNat) :
    (s.setRegBlock 0 (s.loadBytes a (x.toNat + 1))).reg k = s.byteAt (a + k.toNat) := by
  have hx := x.isLt
  have hlen := s.loadBytes_length a (x.toNat + 1)
  rw [State.reg_setRegBlock s (by omega), if_pos (Nat.zero_le _), Nat.sub_zero, s.loadBytes_get a (Nat.lt_succ_of_le hk),
    Option.getD_some]

theorem State.setRegBlock_loadBytes_frame (s : State) (a : Nat) (x : RegIx) :
    Frame { regs := regsUpTo x } s (s.setRegBlock 0 (s.loadBytes a (x.toNat + 1))) := by
  refine (Effect.setRegBlock fun j _ hj => ?_).toFrame
  rw [State.loadBytes_length, Nat.zero_add] at hj
  exact List.mem_map_of_mem (List.mem_range.mpr hj)

/-- Settles O35: LD Vx,[I] in range writes the bytes from I on to the register block. -/
theorem loadReadsTheRegisterBlock : Obligations.LoadReadsTheRegisterBlock := by
  intro x s h
  have hfits : spanFault s.base (x.toNat + 1) = none := spanFault_eq_none.mpr (.inr (Nat.succ_le_succ h))
  exact ⟨_, execLoadRegs_fits hfits, fun k hk => s.reg_setRegBlock_loadBytes _ hk, s.setRegBlock_loadBytes_frame _ x⟩

/-- Settles O36: the store leaves I, so the load reads each register's byte where the store put it. -/
theorem loadUndoesStore : Obligations.LoadUndoesStore := by
  intro x s t u h hstore hmem hi
  obtain ⟨t', hstore', hbytes, hframe⟩ := storeWritesTheRegisterBlock x s h
  cases hstore'.symm.trans hstore
  have hbase : u.i = s.i := hi.trans (hframe.i rfl)
  obtain ⟨w, hload, hregs, -⟩ := loadReadsTheRegisterBlock x u (hbase ▸ h)
  refine ⟨w, hload, fun k hk => ?_⟩
  calc
    w.reg k = u.byteAt (u.i.toNat + k.toNat) := hregs k hk
    _ = t.byteAt (s.i.toNat + k.toNat) := by rw [hbase, hmem]
    _ = s.reg k := hbytes k hk

end Sys2Proof.Machine
end

section
/-! SUPPORT. The stages of a Step and its halts (spec/60_exceptions.md R220 to R228). -/

namespace Sys2Proof.Machine

variable {s t : State} {r : HaltRecord}

/-! The instruction a Step runs. -/

theorem opcodeOf_eq_ofNat (hi lo : Byte) : opcodeOf hi lo = BitVec.ofNat 16 (hi.toNat * 256 + lo.toNat) := by
  rw [← opcodeOf_toNat, BitVec.ofNat_toNat, BitVec.setWidth_eq]

/-- Settles O8: the fetched word is the number the two bytes make, and what runs is its instruction, sampled and advanced. -/
theorem stepRunsDecodedInstruction : Obligations.StepRunsDecodedInstruction := by
  intro s i hm hpc hd
  rw [← opcodeOf_eq_ofNat] at hd
  exact step_decoded hm (State.fetch_ok hpc) hd

/-- A raise after the fetch: PC stays advanced, and the record holds the address before the advance (R224, R226). -/
theorem State.sample_advancePc_raise (s : State) (c : Cause) (info : Word) :
    s.sample.advancePc.raise c info = { s.sample with mode := .halted ⟨c, info, s.pc⟩, pc := s.pc + 2 } :=
  congrArg (s.sample.advancePc.raiseAt · c info) (BitVec.add_sub_cancel s.pc 2)

/-- Settles O9: the halt of an unknown opcode, in which a Step does nothing. -/
theorem unknownOpcodeHalts : Obligations.UnknownOpcodeHalts := by
  intro s op hm hf hd
  exact ⟨_, step_unknown hm hf hd, step_halted rfl, s.sample_advancePc_raise _ op⟩

/-! A word placed for the next Step. -/

theorem State.fetchPlace_toNat (s : State) : s.fetchPlace.toNat = if s.pc.toNat ≤ 0xFFE then s.pc.toNat else 0x200 := by
  have hfits : s.pc.toNat + 1 < Config.memSize ↔ s.pc.toNat ≤ 0xFFE := Nat.succ_lt_succ_iff.trans Nat.lt_succ_iff
  simp only [State.fetchPlace, hfits]
  split <;> rfl

theorem State.fetchPlace_le (s : State) : s.fetchPlace.toNat ≤ 0xFFE := by
  rw [State.fetchPlace_toNat]
  split <;> omega

/-- The fetch after placing a word reads the word back. -/
theorem State.placeWord_fetch (s : State) (op : Word) : (s.placeWord op).fetch = .ok op := by
  have hle := s.fetchPlace_le
  have hfits : s.fetchPlace.toNat + (bytesOf op).length ≤ Config.memSize := show _ + 2 ≤ 4096 by omega
  have hhi : (s.placeWord op).byteAt s.fetchPlace.toNat = op.extractLsb' 8 8 :=
    s.byteAt_storeBytes_add (k := 0) hfits rfl
  have hlo : (s.placeWord op).byteAt (s.fetchPlace.toNat + 1) = op.extractLsb' 0 8 :=
    s.byteAt_storeBytes_add (k := 1) hfits rfl
  refine (State.fetch_ok (s := s.placeWord op) hle).trans (congrArg Except.ok ?_)
  exact (congrArg₂ opcodeOf hhi hlo).trans (opcodeOf_bytes op)

/-- The state in which a placed word's instruction runs: the sampled one with the two bytes stored, MODE and PC written. -/
theorem State.placeWord_effect (s : State) (op : Word) {w : Writes} (hpc : w.pc = true) (hmode : w.mode = true)
    (hmem : span s.fetchPlace.toNat 2 ⊆ w.mem) : Effect w s.sample (s.placeWord op).sample.advancePc :=
  (Effect.storeBytes (s := s.sample) (bs := bytesOf op) hmem).trans
    ((Effect.setRunning hmode).trans (Effect.setPc hpc (s.fetchPlace + 2)))

/-- Settles O13: the Step fetches the placed word, and its instruction runs past it. -/
theorem placedWordRunsNext : Obligations.PlacedWordRunsNext := by
  intro s w i hw
  rw [decodeTableWord_eq] at hw
  have hword : s.withFetchWord 16 w = s.placeWord (BitVec.ofNat 16 w) :=
    congrArg s.placeWord (BitVec.eq_of_toNat_eq (by simp))
  have hpc : (s.fetchPlace + 2).toNat = s.fetchPlace.toNat + 2 := toNat_add_two_of_le s.fetchPlace_le
  rw [hword]
  refine ⟨_, step_decoded rfl (s.placeWord_fetch _) hw, rfl, ?_, (s.placeWord_effect _ rfl rfl fun a ha => ?_).toFrame⟩
  · rw [← s.fetchPlace_toNat]
    exact hpc
  · have ⟨hge, hlt⟩ := mem_span.mp ha
    have hu : (s.placeWord (BitVec.ofNat 16 w)).sample.advancePc.pc.toNat = s.fetchPlace.toNat + 2 := hpc
    simp only [hu, List.mem_cons, List.not_mem_nil, or_false]
    omega

/-! The causes of a halt in the execute stage. -/

theorem State.mode_ne_halted (h : s.isHalted = false) : s.mode ≠ .halted r := by
  intro hm
  simp [State.isHalted, hm] at h

/-- What the record of a transfer's halt holds, and why it halted (R223). -/
theorem raise_spanFault {len bad : Nat} (hf : spanFault s.base len = some bad)
    (hm : (s.raise .outOfRangeAddress (BitVec.ofNat 16 bad)).mode = .halted r) :
    r.haltPc = s.pc - 2 ∧ r.cause = .outOfRangeAddress ∧ r.info.toNat = max s.i.toNat 4096 ∧
      0 < len ∧ 4096 < s.i.toNat + len := by
  cases hm
  rw [spanFault_eq] at hf
  split at hf
  case isTrue h =>
    cases hf
    have hi := s.i.isLt
    have hlt : max s.i.toNat 4096 < 2 ^ 16 := by omega
    exact ⟨rfl, rfl, Nat.mod_eq_of_lt hlt, h⟩
  case isFalse => cases hf

theorem State.storeAtI_halted {bs : List Byte} (hs : s.isHalted = false) (hm : (s.storeAtI bs).mode = .halted r) :
    r.haltPc = s.pc - 2 ∧ r.cause = .outOfRangeAddress ∧ r.info.toNat = max s.i.toNat 4096 ∧
      0 < bs.length ∧ 4096 < s.i.toNat + bs.length := by
  cases hf : spanFault s.base bs.length with
  | some bad =>
    rw [State.storeAtI_fault hf] at hm
    exact raise_spanFault hf hm
  | none =>
    rw [State.storeAtI, hf] at hm
    exact absurd hm (State.mode_ne_halted hs)

theorem State.skipIf_mode (s : State) (c : Bool) : (s.skipIf c).mode = s.mode := by
  rw [State.skipIf_eq]

theorem State.keySkip_halted {x : RegIx} {held : Bool} (hs : s.isHalted = false)
    (hm : (s.keySkip x held).mode = .halted r) :
    r.haltPc = s.pc - 2 ∧ r.cause = .keyIndexOutOfRange ∧ 15 < (s.reg x).toNat ∧ r.info.toNat = (s.reg x).toNat := by
  rcases Nat.lt_or_ge 15 (s.reg x).toNat with h | h
  · rw [State.keySkip_of_gt h] at hm
    cases hm
    exact ⟨rfl, rfl, h, zext16_toNat _⟩
  · rw [State.keySkip_of_le h, State.skipIf_mode] at hm
    exact absurd hm (State.mode_ne_halted hs)

/-- Settles O42: RET and CALL by their stack, the key skips by their index, the four transfers by their range check; no other
instruction writes MODE but `LD Vx,K`, which waits. -/
theorem eachHaltHasItsCause : Obligations.EachHaltHasItsCause := by
  intro i s t r hs h hm
  have hlive : s.mode ≠ .halted r := State.mode_ne_halted hs
  cases i with
  | ret ign =>
    by_cases hstack : s.stack = []
    · cases h.symm.trans (execRet_empty hstack)
      cases hm
      exact ⟨rfl, .inl ⟨rfl, ⟨ign, rfl⟩, hstack, rfl⟩⟩
    · cases h.symm.trans (execRet_nonempty hstack)
      exact absurd hm hlive
  | call nnn =>
    by_cases hfull : s.config.stackDepth = some s.stack.length
    · cases h.symm.trans (execCall_full nnn hfull)
      cases hm
      exact ⟨rfl, .inr (.inl ⟨rfl, ⟨nnn, rfl⟩, hfull, rfl⟩)⟩
    · cases h.symm.trans (execCall_room nnn hfull)
      exact absurd hm hlive
  | skp x =>
    cases h
    obtain ⟨hpc, hcause, hgt, hinfo⟩ := State.keySkip_halted hs hm
    exact ⟨hpc, .inr (.inr (.inl ⟨hcause, x, .inl rfl, hgt, hinfo⟩))⟩
  | sknp x =>
    cases h
    obtain ⟨hpc, hcause, hgt, hinfo⟩ := State.keySkip_halted hs hm
    exact ⟨hpc, .inr (.inr (.inl ⟨hcause, x, .inr rfl, hgt, hinfo⟩))⟩
  | drw x y n =>
    cases hf : spanFault s.base n.toNat with
    | some bad =>
      cases h.symm.trans (execDrw_fault x y hf)
      obtain ⟨hpc, hcause, hinfo, hpos, hgt⟩ := raise_spanFault hf hm
      have hn : n ≠ 0 := by
        rintro rfl
        exact absurd hpos (Nat.lt_irrefl 0)
      exact ⟨hpc, .inr (.inr (.inr ⟨hcause, hinfo, .inl ⟨x, y, n, rfl, hn, hgt⟩⟩))⟩
    | none =>
      cases h.symm.trans (execDrw_fits x y hf)
      exact absurd hm hlive
  | ldB x =>
    cases h
    obtain ⟨hpc, hcause, hinfo, -, hgt⟩ := State.storeAtI_halted hs hm
    exact ⟨hpc, .inr (.inr (.inr ⟨hcause, hinfo, .inr (.inl ⟨x, rfl, hgt⟩)⟩))⟩
  | storeRegs x =>
    cases h
    obtain ⟨hpc, hcause, hinfo, -, hgt⟩ := State.storeAtI_halted hs hm
    rw [State.regBlock_length] at hgt
    exact ⟨hpc, .inr (.inr (.inr ⟨hcause, hinfo, .inr (.inr ⟨x, .inl rfl, Nat.lt_of_succ_lt_succ hgt⟩)⟩))⟩
  | loadRegs x =>
    cases hf : spanFault s.base (x.toNat + 1) with
    | some bad =>
      cases h.symm.trans (execLoadRegs_fault hf)
      obtain ⟨hpc, hcause, hinfo, -, hgt⟩ := raise_spanFault hf hm
      exact ⟨hpc, .inr (.inr (.inr ⟨hcause, hinfo, .inr (.inr ⟨x, .inr rfl, Nat.lt_of_succ_lt_succ hgt⟩)⟩))⟩
    | none =>
      cases h.symm.trans (execLoadRegs_fits hf)
      rw [State.setRegBlock_eq] at hm
      exact absurd hm hlive
  | seImm | sneImm | seReg | sneReg =>
    cases h
    rw [State.skipIf_mode] at hm
    exact absurd hm hlive
  | ldVxK x =>
    cases h
    exact nomatch hm
  | _ =>
    cases h
    exact absurd hm hlive

/-! What a halting Step leaves. -/

theorem State.poll_isHalted (h : s.isHalted = false) (k : RegIx) : (s.poll k).isHalted = false := by
  unfold State.poll
  split
  · exact h
  · rfl

theorem Raised.precise (h : Raised s.sample.advancePc t) (hm : t.mode = .halted r) :
    r.haltPc = s.pc ∧ t = { s.sample with mode := .halted r, pc := s.pc + 2 } := by
  obtain ⟨c, info, rfl⟩ := h
  rw [State.sample_advancePc_raise] at hm ⊢
  cases hm
  exact ⟨rfl, rfl⟩

/-- Settles O43, along the cases of a Step: it halts only in Running, in the fetch, in the decode or by an instruction's raise,
and of these the failed fetch alone leaves PC. -/
theorem haltsArePrecise : Obligations.HaltsArePrecise := by
  intro s t r hs h hm
  rcases step_cases s with ⟨r', hr, -⟩ | ⟨k, hk, e⟩ | ⟨hrun, hpc, e⟩ | ⟨hrun, hpc, op, -, -, e⟩ | ⟨hrun, hpc, op, i, -, -, e⟩
  · exact absurd hr (State.mode_ne_halted hs)
  · cases h.symm.trans e
    exact absurd hm (State.mode_ne_halted (State.poll_isHalted (s := s.sample) hs k))
  · cases h.symm.trans e
    cases hm
    rw [if_neg (Nat.not_le.mpr hpc)]
    exact ⟨hrun, rfl, rfl⟩
  · cases h.symm.trans e
    rw [if_pos hpc]
    exact ⟨hrun, Raised.precise ⟨_, _, rfl⟩ hm⟩
  · obtain ⟨u, hu, hraised | heffect⟩ := exec_cases i s.sample.advancePc
    · cases (h.symm.trans e).trans hu
      rw [if_pos hpc]
      exact ⟨hrun, hraised.precise hm⟩
    · cases (h.symm.trans e).trans hu
      exact absurd hm (State.mode_ne_halted (heffect.live hs))

end Sys2Proof.Machine
end

section
/-! SUPPORT. The timers, several Steps in a row and Tick (spec/60_exceptions.md R227, R238 to R240). -/

namespace Sys2Proof.Machine

variable {s t : State}

/-! TimerDec. -/

theorem State.timerDec_halted (h : s.isHalted = true) : s.timerDec = s := if_pos h

theorem State.timerDec_live (h : s.isHalted = false) :
    s.timerDec = { s with dt := countDown s.dt, st := countDown s.st } := by
  rw [State.timerDec, h]
  rfl

@[simp] theorem State.timerDec_isHalted (s : State) : s.timerDec.isHalted = s.isHalted := by
  unfold State.timerDec
  split <;> rfl

/-- Settles O47: outside Halted TimerDec is a countdown of DT and one of ST. -/
theorem timerDecCountsEachTimerDown : Obligations.TimerDecCountsEachTimerDown := by
  intro s
  refine ⟨State.timerDec_halted, fun h => ?_⟩
  rw [State.timerDec_live h]
  refine ⟨?_, ?_, ((Effect.setDt rfl (countDown s.dt)).trans (Effect.setSt rfl (countDown s.st))).toFrame⟩
  · rw [countDown_toNat]
    split <;> omega
  · rw [countDown_toNat]
    split <;> omega

/-- A timer after `n` decrements, as a number: the subtraction stops at zero. -/
theorem State.timerDec_iterate_toNat (h : s.isHalted = false) (n : Nat) :
    (State.timerDec^[n] s).dt.toNat = s.dt.toNat - n ∧ (State.timerDec^[n] s).st.toNat = s.st.toNat - n := by
  induction n generalizing s with
  | zero => exact ⟨rfl, rfl⟩
  | succ n ih =>
    obtain ⟨hdt, hst⟩ := ih (s.timerDec_isHalted.trans h)
    rw [Function.iterate_succ_apply, hdt, hst, State.timerDec_live h, countDown_toNat, countDown_toNat]
    omega

/-- Settles O48: `v` less `n` is zero exactly from `n = v` on. -/
theorem timerReachesZeroAfterItsValue : Obligations.TimerReachesZeroAfterItsValue := by
  intro s n h
  obtain ⟨hdt, hst⟩ := State.timerDec_iterate_toNat h n
  rw [BitVec.toNat_eq, BitVec.toNat_eq, hdt, hst]
  exact ⟨Nat.sub_eq_zero_iff_le, Nat.sub_eq_zero_iff_le⟩

/-! Steps in a row. -/

theorem steps_succ {n : Nat} (h : step s = .next t) : steps (n + 1) s = steps n t := by
  rw [steps, h]

/-- Since a Step always answers, so do Steps in a row. -/
theorem steps_answer (n : Nat) (s : State) : ∃ t, steps n s = .next t := by
  induction n generalizing s with
  | zero => exact ⟨s, rfl⟩
  | succ n ih =>
    obtain ⟨t, ht⟩ := everyStepAnswersNext s
    rw [steps_succ ht]
    exact ih t

theorem steps_halted {r : HaltRecord} (h : s.mode = .halted r) (n : Nat) : steps n s = .next s := by
  induction n with
  | zero => rfl
  | succ n ih => rw [steps_succ (step_halted h), ih]

theorem tick_of_steps (h : steps s.config.stepsPerTick s = .next t) : tick s = .next t.timerDec := by
  rw [tick, h]

/-- Settles O49: the Steps of a Tick answer, and the decrement comes after them. -/
theorem tickIsStepsThenOneDecrement : Obligations.TickIsStepsThenOneDecrement := by
  intro s
  obtain ⟨u, hu⟩ := steps_answer s.config.stepsPerTick s
  exact ⟨u, hu, tick_of_steps hu⟩

/-! Halted. -/

theorem State.isHalted_of_halted {r : HaltRecord} (h : s.mode = .halted r) : s.isHalted = true := by
  rw [State.isHalted, h]

theorem not_runOutsideContract {e : Rat} (he : 0 ≤ e) (hfreq : 0 < s.config.freq) : ¬ (e < 0 ∨ s.config.freq ≤ 0) :=
  not_or.mpr ⟨not_lt.mpr he, not_le.mpr hfreq⟩

theorem run_halted {e : Rat} (he : 0 ≤ e) (hfreq : 0 < s.config.freq) (h : s.isHalted = true) : run e s = .next s := by
  rw [run, if_neg (not_runOutsideContract he hfreq), if_pos h]

/-- Outside Halted Run is its Steps and then its timers. -/
theorem run_live {e : Rat} (he : 0 ≤ e) (hfreq : 0 < s.config.freq) (h : s.isHalted = false)
    (hsteps : s.runSteps e = .next t) : run e s = t.runTimers e := by
  rw [run, if_neg (not_runOutsideContract he hfreq), if_neg (Bool.eq_false_iff.mp h), hsteps]

/-- Settles O14: each operation looks at MODE first; a Tick is halted Steps and a halted TimerDec. -/
theorem haltedIsAbsorbing : Obligations.HaltedIsAbsorbing := by
  intro s r hm
  have hhalted := State.isHalted_of_halted hm
  have hdec := State.timerDec_halted hhalted
  refine ⟨step_halted hm, ?_, hdec, fun _ => if_pos hhalted, fun _ he hfreq => run_halted he hfreq hhalted, rfl⟩
  rw [tick_of_steps (steps_halted hm _), hdec]

end Sys2Proof.Machine
end

section
/-! SUPPORT. Run (spec/60_exceptions.md R241) with exact arithmetic: a Step neither reads nor writes the accumulators, so each loop
is so many Steps, or decrements, with an account of the accumulator beside them. -/

namespace Sys2Proof.Machine

variable {s t : State} {q : Rat}

/-! A Step past a change of ACC_STEP. -/

theorem State.skipIf_setAccStep (s : State) (q : Rat) (c : Bool) :
    (s.setAccStep q).skipIf c = (s.skipIf c).setAccStep q := by
  cases c <;> rfl

theorem State.keySkip_setAccStep (s : State) (q : Rat) (x : RegIx) (held : Bool) :
    (s.setAccStep q).keySkip x held = (s.keySkip x held).setAccStep q := by
  unfold State.keySkip
  simp only [State.setAccStep_reg, State.skipIf_setAccStep]
  split <;> rfl

theorem State.storeAtI_setAccStep (s : State) (q : Rat) (bs : List Byte) :
    (s.setAccStep q).storeAtI bs = (s.storeAtI bs).setAccStep q := by
  unfold State.storeAtI
  simp only [State.base, State.setAccStep_i]
  split <;> rfl

theorem State.setRegBlock_setAccStep (s : State) (q : Rat) (k : Nat) (bs : List Byte) :
    (s.setAccStep q).setRegBlock k bs = (s.setRegBlock k bs).setAccStep q := by
  induction bs generalizing s k with
  | nil => rfl
  | cons b bs ih => exact ih (s.setReg (BitVec.ofNat 4 k) b) (k + 1)

theorem State.poll_setAccStep (s : State) (q : Rat) (k : RegIx) : (s.setAccStep q).poll k = (s.poll k).setAccStep q := by
  have hkeys : (s.setAccStep q).firstKey = s.firstKey := rfl
  unfold State.poll
  rw [hkeys]
  split <;> rfl

/-- No instruction looks at ACC_STEP or writes it. -/
theorem exec_setAccStep {i : Instr} (h : exec i s = .next t) (q : Rat) :
    exec i (s.setAccStep q) = .next (t.setAccStep q) := by
  cases i with
  | ret ign =>
    by_cases hstack : s.stack = []
    · cases h.symm.trans (execRet_empty hstack)
      exact execRet_empty (s := s.setAccStep q) hstack
    · cases h.symm.trans (execRet_nonempty hstack)
      exact execRet_nonempty (s := s.setAccStep q) hstack
  | call nnn =>
    by_cases hfull : s.config.stackDepth = some s.stack.length
    · cases h.symm.trans (execCall_full nnn hfull)
      exact execCall_full (s := s.setAccStep q) nnn hfull
    · cases h.symm.trans (execCall_room nnn hfull)
      exact execCall_room (s := s.setAccStep q) nnn hfull
  | drw x y n =>
    cases hf : spanFault s.base n.toNat with
    | some bad =>
      cases h.symm.trans (execDrw_fault x y hf)
      exact execDrw_fault (s := s.setAccStep q) x y hf
    | none =>
      cases h.symm.trans (execDrw_fits x y hf)
      exact execDrw_fits (s := s.setAccStep q) x y hf
  | loadRegs x =>
    cases hf : spanFault s.base (x.toNat + 1) with
    | some bad =>
      cases h.symm.trans (execLoadRegs_fault hf)
      exact execLoadRegs_fault (s := s.setAccStep q) hf
    | none =>
      cases h.symm.trans (execLoadRegs_fits hf)
      exact (execLoadRegs_fits (s := s.setAccStep q) hf).trans (congrArg _ (s.setRegBlock_setAccStep q 0 _))
  | seImm | sneImm | seReg | sneReg =>
    cases h
    exact congrArg _ (s.skipIf_setAccStep q _)
  | skp x | sknp x =>
    cases h
    exact congrArg _ (s.keySkip_setAccStep q x _)
  | ldB x | storeRegs x =>
    cases h
    exact congrArg _ (s.storeAtI_setAccStep q _)
  | _ =>
    cases h
    rfl

theorem step_setAccStep (h : step s = .next t) (q : Rat) : step (s.setAccStep q) = .next (t.setAccStep q) := by
  rcases step_cases s with ⟨r, hm, e⟩ | ⟨k, hm, e⟩ | ⟨hm, hpc, e⟩ | ⟨hm, -, op, hf, hd, e⟩ | ⟨hm, -, op, i, hf, hd, e⟩
  · cases h.symm.trans e
    exact step_halted (s := s.setAccStep q) hm
  · cases h.symm.trans e
    exact (step_waitKey (s := s.setAccStep q) hm).trans (congrArg _ (s.sample.poll_setAccStep q k))
  · cases h.symm.trans e
    exact step_error (s := s.setAccStep q) hm hpc
  · cases h.symm.trans e
    exact step_unknown (s := s.setAccStep q) hm hf hd
  · exact (step_decoded (s := s.setAccStep q) hm hf hd).trans (exec_setAccStep (e.symm.trans h) q)

/-! What Steps leave of the scheduler. -/

theorem exec_config_accTimer {i : Instr} (h : exec i s = .next t) : t.config = s.config ∧ t.accTimer = s.accTimer := by
  obtain ⟨u, hu, ⟨c, info, rfl⟩ | heffect⟩ := exec_cases i s
  · cases h.symm.trans hu
    exact ⟨rfl, rfl⟩
  · cases h.symm.trans hu
    exact ⟨heffect.config, heffect.accTimer⟩

theorem State.poll_config_accTimer (s : State) (k : RegIx) :
    (s.poll k).config = s.config ∧ (s.poll k).accTimer = s.accTimer := by
  unfold State.poll
  split <;> exact ⟨rfl, rfl⟩

theorem step_config_accTimer (h : step s = .next t) : t.config = s.config ∧ t.accTimer = s.accTimer := by
  rcases step_cases s with ⟨r, -, e⟩ | ⟨k, -, e⟩ | ⟨-, -, e⟩ | ⟨-, -, op, -, -, e⟩ | ⟨-, -, op, i, -, -, e⟩
  case inr.inl =>
    cases h.symm.trans e
    exact s.sample.poll_config_accTimer k
  case inr.inr.inr.inr => exact (exec_config_accTimer (e.symm.trans h) :)
  all_goals
    cases h.symm.trans e
    exact ⟨rfl, rfl⟩

theorem steps_config_accTimer {n : Nat} (h : steps n s = .next t) : t.config = s.config ∧ t.accTimer = s.accTimer := by
  induction n generalizing s with
  | zero =>
    cases h
    exact ⟨rfl, rfl⟩
  | succ n ih =>
    obtain ⟨u, hu⟩ := everyStepAnswersNext s
    rw [steps_succ hu] at h
    obtain ⟨hconfig, htimer⟩ := step_config_accTimer hu
    rw [← hconfig, ← htimer]
    exact ih h

/-! The account of a loop. -/

/-- An accumulator held `held`; `n` passes each took `unit` from it while there was more than that, and `left` is what stays. -/
structure Accounts (unit held left : Rat) (n : Nat) : Prop where
  total : left + n * unit = held
  le_unit : left ≤ unit
  pos : 0 < n → 0 < left

theorem Accounts.zero {unit held : Rat} (h : held ≤ unit) : Accounts unit held held 0 where
  total := by simp
  le_unit := h
  pos hn := absurd hn (Nat.lt_irrefl 0)

theorem Accounts.succ {unit held left : Rat} {n : Nat} (h : unit < held) (k : Accounts unit (held - unit) left n) :
    Accounts unit held left (n + 1) where
  total := by
    have := k.total
    push_cast
    linarith
  le_unit := k.le_unit
  pos _ := by
    rcases Nat.eq_zero_or_pos n with rfl | hn
    · have := k.total
      push_cast at this
      linarith
    · exact k.pos hn

/-- The passes a loop may take are enough for what the accumulator holds. -/
theorem le_loopFuel (held : Rat) {unit : Rat} (hunit : 0 < unit) : held ≤ (loopFuel held unit + 1) * unit := by
  have hceil : held / unit ≤ ((held / unit).ceil : Rat) := Rat.le_ceil
  have hnat : ((held / unit).ceil : Rat) ≤ ((held / unit).ceil.toNat : Rat) := by exact_mod_cast Int.self_le_toNat _
  rw [← div_le_iff₀ hunit, loopFuel]
  push_cast
  linarith

/-! The two loops. -/

/-- A rounded accumulator of exact format is the number itself. -/
theorem AccArith.round_exact {f : AccArith} (h : f = .exact) (q : Rat) : f.round q = q := by
  rw [h]
  rfl

theorem stepLoop_exact {fuel : Nat} {held : Rat} (hexact : s.config.accArith = .exact) (hfuel : held ≤ (fuel + 1) * 1) :
    ∃ n u left, steps n s = .next u ∧ stepLoop fuel (s.setAccStep held) = .next (u.setAccStep left) ∧
      Accounts 1 held left n := by
  have hacc : (s.setAccStep held).accStep = held := AccArith.round_exact hexact held
  induction fuel generalizing s held with
  | zero =>
    have hle : held ≤ 1 := by simpa using hfuel
    refine ⟨0, s, held, rfl, ?_, .zero hle⟩
    rw [stepLoop, hacc, if_neg (not_lt.mpr hle)]
  | succ fuel ih =>
    rw [stepLoop, hacc]
    by_cases hlt : 1 < held
    · obtain ⟨t, ht⟩ := everyStepAnswersNext s
      have hexact' : t.config.accArith = .exact := (congrArg _ (step_config_accTimer ht).1).trans hexact
      have hfuel' : held - 1 ≤ (fuel + 1) * 1 := by
        push_cast at hfuel
        linarith
      obtain ⟨n, u, left, hsteps, hloop, haccounts⟩ := ih hexact' hfuel' (AccArith.round_exact hexact' _)
      refine ⟨n + 1, u, left, (steps_succ ht).trans hsteps, ?_, haccounts.succ hlt⟩
      rw [if_pos hlt, step_setAccStep ht held]
      simp only [State.setAccStep_accStep, AccArith.round_exact hexact']
      exact hloop
    · exact ⟨0, s, held, rfl, if_neg hlt, .zero (not_lt.mp hlt)⟩

theorem State.timerDec_setAccTimer (s : State) (q : Rat) : (s.setAccTimer q).timerDec = s.timerDec.setAccTimer q := by
  have hmode : (s.setAccTimer q).isHalted = s.isHalted := rfl
  unfold State.timerDec
  rw [hmode]
  split <;> rfl

theorem State.timerDec_setAccStep (s : State) (q : Rat) : (s.setAccStep q).timerDec = s.timerDec.setAccStep q := by
  have hmode : (s.setAccStep q).isHalted = s.isHalted := rfl
  unfold State.timerDec
  rw [hmode]
  split <;> rfl

theorem State.timerDec_iterate_setAccStep (s : State) (q : Rat) (m : Nat) :
    State.timerDec^[m] (s.setAccStep q) = (State.timerDec^[m] s).setAccStep q :=
  Function.Commute.iterate_left (g := (State.setAccStep · q)) (fun u => u.timerDec_setAccStep q) m s

theorem State.timerDec_config (s : State) : s.timerDec.config = s.config := by
  unfold State.timerDec
  split <;> rfl

theorem State.timerDec_iterate_config (s : State) (m : Nat) : (State.timerDec^[m] s).config = s.config := by
  induction m generalizing s with
  | zero => rfl
  | succ m ih => rw [Function.iterate_succ_apply, ih, State.timerDec_config]

theorem timerLoop_exact {fuel : Nat} {held : Rat} (hexact : s.config.accArith = .exact)
    (hfuel : held ≤ (fuel + 1) * Config.period) :
    ∃ m left, timerLoop fuel (s.setAccTimer held) = .next ((State.timerDec^[m] s).setAccTimer left) ∧
      Accounts Config.period held left m := by
  have hacc : (s.setAccTimer held).accTimer = held := AccArith.round_exact hexact held
  have hperiod : (s.setAccTimer held).period = Config.period := AccArith.round_exact hexact _
  induction fuel generalizing s held with
  | zero =>
    have hle : held ≤ Config.period := by simpa using hfuel
    refine ⟨0, held, ?_, .zero hle⟩
    rw [timerLoop, hacc, hperiod, if_neg (not_lt.mpr hle)]
    rfl
  | succ fuel ih =>
    rw [timerLoop, hacc, hperiod]
    by_cases hlt : Config.period < held
    · have hexact' : s.timerDec.config.accArith = .exact := (congrArg _ s.timerDec_config).trans hexact
      have hfuel' : held - Config.period ≤ (fuel + 1) * Config.period := by
        push_cast at hfuel
        linarith
      obtain ⟨m, left, hloop, haccounts⟩ :=
        ih hexact' hfuel' (AccArith.round_exact hexact' _) (AccArith.round_exact hexact' _)
      refine ⟨m + 1, left, ?_, haccounts.succ hlt⟩
      rw [if_pos hlt, State.timerDec_setAccTimer]
      exact hloop
    · exact ⟨0, held, if_neg hlt, .zero (not_lt.mp hlt)⟩

/-! The two halves of Run. -/

theorem State.runSteps_exact (hexact : s.config.accArith = .exact) (e : Rat) :
    ∃ n u left, steps n s = .next u ∧ s.runSteps e = .next (u.setAccStep left) ∧
      Accounts 1 (s.accStep + e * s.config.freq / 1000) left n := by
  unfold State.runSteps
  simp only [State.setAccStep_accStep, AccArith.round_exact hexact]
  exact stepLoop_exact hexact (le_loopFuel _ one_pos)

theorem State.runTimers_exact (hexact : s.config.accArith = .exact) (e : Rat) :
    ∃ m left, s.runTimers e = .next ((State.timerDec^[m] s).setAccTimer left) ∧
      Accounts Config.period (s.accTimer + e) left m := by
  unfold State.runTimers
  simp only [State.setAccTimer_accTimer, AccArith.round_exact hexact]
  exact timerLoop_exact hexact (le_loopFuel _ (by norm_num))

/-- Settles O50: the account of the Step loop, then that of the timer loop, which starts from what the Steps left. -/
theorem runAccountsForElapsedTime : Obligations.RunAccountsForElapsedTime := by
  intro s e hexact he hfreq hlive
  obtain ⟨n, u, left, hsteps, hrunSteps, hstep⟩ := State.runSteps_exact hexact e
  obtain ⟨hconfig, htimer⟩ := steps_config_accTimer hsteps
  have hexact' : u.config.accArith = .exact := (congrArg _ hconfig).trans hexact
  obtain ⟨m, left', hrunTimers, hperiod⟩ := State.runTimers_exact (s := u.setAccStep left) hexact' e
  rw [State.timerDec_iterate_setAccStep] at hrunTimers
  have hround : (State.timerDec^[m] u).config.accArith = .exact := (congrArg _ (u.timerDec_iterate_config m)).trans hexact'
  refine ⟨n, m, u, ((State.timerDec^[m] u).setAccStep left).setAccTimer left', hsteps,
    (run_live he hfreq hlive hrunSteps).trans hrunTimers, rfl, ?_⟩
  simp only [State.setAccTimer_accStep, State.setAccTimer_accTimer, State.setAccStep_accStep, State.setAccStep_config,
    AccArith.round_exact hround]
  rw [State.setAccStep_accTimer, htimer] at hperiod
  obtain ⟨htotal, hle, hpos⟩ := hstep
  rw [mul_one] at htotal
  exact ⟨htotal, hle, hpos, hperiod.total, hperiod.le_unit, hperiod.pos⟩

end Sys2Proof.Machine
end

section
/-! SUPPORT. A loaded program at the entry (spec/20_memory.md R68, spec/70_reset_and_hazards.md R270, R274). -/

namespace Sys2Proof.Machine

/-- A Step in Running at the entry runs the instruction the bytes there decode to, with PC past it. -/
theorem step_at_entry {s : State} {i : Instr} (hm : s.mode = .running) (hpc : s.pc = Config.entry)
    (hd : decode (opcodeOf (s.byteAt 0x200) (s.byteAt 0x201)) = some i) :
    step s = exec i { s.sample with pc := 0x202 } := by
  have haddr : s.pc.toNat = 0x200 := congrArg BitVec.toNat hpc
  have hf := State.fetch_ok (s := s) (by omega)
  rw [haddr] at hf
  have hadvance : s.sample.advancePc = { s.sample with pc := 0x202 } := congrArg (s.sample.setPc <| · + 2) hpc
  rw [← hadvance]
  exact step_decoded hm hf hd

/-- Settles O52: the reset leaves the machine Running with PC at the entry, and the load puts the program's bytes there. -/
theorem loadedProgramRunsFromTheEntry : Obligations.LoadedProgramRunsFromTheEntry := by
  intro s hi lo rest i hlen hd
  have hfits : (hi :: lo :: rest).length ≤ 3584 := Nat.succ_le_succ (Nat.succ_le_succ hlen)
  obtain ⟨hbytes, -⟩ := (loadProgramWritesFromTheEntry s.hostReset (hi :: lo :: rest) rfl).1 hfits
  have hload := State.loadProgram_fits (s := s.hostReset) rfl hfits
  rw [hload] at hbytes
  refine ⟨_, congrArg Host.Outcome.next hload, step_at_entry rfl rfl ?_⟩
  rw [hbytes 0 (by simp), hbytes 1 (by simp), opcodeOf_eq_ofNat]
  exact hd

end Sys2Proof.Machine
end

section
/-! SUPPORT. What Tick and Run keep (spec/60_exceptions.md R240, R241): whatever their parts keep. The loops are gone through here
once; the invariant of the host events is the first use. -/

namespace Sys2Proof.Machine

variable {P : State → Prop} {s t : State}

/-- A property that the two parts of a Tick keep. -/
structure KeptByTick (P : State → Prop) : Prop where
  step : ∀ {s t}, P s → step s = .next t → P t
  timerDec : ∀ {s}, P s → P s.timerDec

/-- A property that Run's parts keep: those of a Tick, and the accounts. -/
structure KeptByRun (P : State → Prop) : Prop extends KeptByTick P where
  setAccStep : ∀ {s} (q : Rat), P s → P (s.setAccStep q)
  setAccTimer : ∀ {s} (q : Rat), P s → P (s.setAccTimer q)

theorem KeptByTick.steps (k : KeptByTick P) {n : Nat} (hs : P s) (h : steps n s = .next t) : P t := by
  induction n generalizing s with
  | zero =>
    cases h
    exact hs
  | succ n ih =>
    obtain ⟨u, hu⟩ := everyStepAnswersNext s
    rw [steps_succ hu] at h
    exact ih (k.step hs hu) h

theorem KeptByTick.tick (k : KeptByTick P) (hs : P s) (h : tick s = .next t) : P t := by
  obtain ⟨u, hu⟩ := steps_answer s.config.stepsPerTick s
  cases h.symm.trans (tick_of_steps hu)
  exact k.timerDec (k.steps hs hu)

theorem KeptByRun.stepLoop (k : KeptByRun P) {fuel : Nat} (hs : P s) (h : stepLoop fuel s = .next t) : P t := by
  induction fuel generalizing s with
  | zero =>
    rw [Machine.stepLoop] at h
    split at h <;> cases h
    exact hs
  | succ fuel ih =>
    obtain ⟨u, hu⟩ := everyStepAnswersNext s
    rw [Machine.stepLoop, hu] at h
    split at h
    · exact ih (k.setAccStep _ (k.step hs hu)) h
    · cases h
      exact hs

theorem KeptByRun.timerLoop (k : KeptByRun P) {fuel : Nat} (hs : P s) (h : timerLoop fuel s = .next t) : P t := by
  induction fuel generalizing s with
  | zero =>
    rw [Machine.timerLoop] at h
    split at h <;> cases h
    exact hs
  | succ fuel ih =>
    rw [Machine.timerLoop] at h
    split at h
    · exact ih (k.setAccTimer _ (k.timerDec hs)) h
    · cases h
      exact hs

theorem KeptByRun.run (k : KeptByRun P) {e : Rat} (hs : P s) (h : run e s = .next t) : P t := by
  unfold Machine.run at h
  split at h
  · cases h
  · split at h
    · cases h
      exact hs
    · split at h
      case h_1 u hsteps => exact k.timerLoop (k.setAccTimer _ (k.stepLoop (k.setAccStep _ hs) hsteps)) h
      all_goals cases h

/-! The invariant. -/

theorem Inv.timerDec (hi : Inv s) : Inv s.timerDec := by
  unfold State.timerDec
  split
  · exact hi
  · exact hi.congr rfl rfl hi.pc rfl

theorem keptByRun_inv : KeptByRun Inv where
  step hi h := stepKeepsTheInvariant _ _ hi h
  timerDec hi := hi.timerDec
  setAccStep _ hi := hi.congr rfl rfl hi.pc rfl
  setAccTimer _ hi := hi.congr rfl rfl hi.pc rfl

theorem Inv.storeBytes (hi : Inv s) (a : Nat) (bs : List Byte) : Inv (s.storeBytes a bs) where
  mem := Memory.writeBytes_wf hi.mem a bs
  pc := hi.pc
  stack := hi.stack
  depth := hi.depth

/-- A load stores bytes, raises, or, in Halted, does nothing. -/
theorem Inv.loadProgram (hi : Inv s) (bytes : List Byte) : Inv (s.loadProgram bytes) := by
  unfold State.loadProgram
  split
  · exact hi
  · split
    · exact hi.congr rfl rfl hi.pc rfl
    · exact hi.storeBytes _ _

/-- Neither of the rates occurs in the invariant. -/
theorem Inv.setRates (hi : Inv s) (f : Rat) (n : Nat) :
    Inv { s with config := { s.config with freq := f, stepsPerTick := n } } :=
  ⟨hi.mem, hi.pc, hi.stack, hi.depth⟩

/-- Settles O45: power-on and reset start from a state that meets the invariant, Tick and Run keep what their parts keep, and the
other events are single operations. -/
theorem hostEventsKeepTheInvariant : Obligations.HostEventsKeepTheInvariant := by
  intro e s t hi h
  cases e with
  | powerOn c =>
    cases h
    exact (powerOn_inv c).congr rfl rfl (powerOn_inv c).pc rfl
  | setRates f n =>
    cases h
    exact hi.setRates f n
  | reset =>
    cases h
    exact (powerOn_inv s.config).congr rfl rfl (powerOn_inv s.config).pc rfl
  | loadProgram bytes =>
    cases h
    exact hi.loadProgram bytes
  | step => exact stepKeepsTheInvariant s t hi h
  | tick => exact keptByRun_inv.tick hi h
  | run e => exact keptByRun_inv.run hi h
  | present ps =>
    cases h
    exact hi.congr rfl rfl hi.pc rfl

end Sys2Proof.Machine
end

section
/-! SUPPORT. The end of a run (spec/70_reset_and_hazards.md R284, 92 D26): the word it is recognised by, and what still moves after
it. -/

namespace Sys2Proof.Machine

variable {s t u : State} {op : Word} {nnn : Addr}

/-! A jump to its own address. -/

/-- The word of a jump is 0x1000 plus its target (R95): the two have no bit in common. -/
theorem encode_jp (nnn : Addr) : encode (.jp nnn) = 0x1000 + addrOperand nnn := by
  have hdisjoint : (0x1000 : Word) &&& addrOperand nnn = 0 :=
    BitVec.eq_of_getLsbD_eq fun k hk => by interval_cases k <;> simp [addrOperand]
  exact (BitVec.add_eq_or_of_and_eq_zero _ _ hdisjoint).symm

theorem decode_eq_jp : decode op = some (.jp nnn) ↔ op = 0x1000 + addrOperand nnn := by
  rw [← encode_jp]
  constructor
  · exact fun h => (encodeUndoesDecode op _ h).symm
  · rintro rfl
    exact decodeUndoesEncode _

theorem State.pc_le_of_fetch (h : s.fetch = .ok op) : s.pc.toNat ≤ 0xFFE := by
  by_contra hpc
  exact nomatch h.symm.trans (State.fetch_error (not_le.mp hpc))

/-- Every address below 0x1000 is the target of a jump. -/
theorem addrOperand_setWidth {a : Word} (h : a.toNat < 0x1000) : addrOperand (a.setWidth 12) = a := by
  refine BitVec.eq_of_toNat_eq ?_
  rw [addrOperand_toNat, BitVec.toNat_setWidth, Nat.mod_eq_of_lt h]

/-- In Running a run has ended exactly when the fetched word is 0x1000 plus PC. -/
theorem finished_running_iff_fetch (h : s.mode = .running) : s.finished = true ↔ s.fetch = .ok (0x1000 + s.pc) := by
  rw [finished_running h]
  constructor
  · rintro ⟨op, nnn, hf, hd, hp⟩
    rw [hf, decode_eq_jp.mp hd, hp]
  · intro hf
    have hpc := State.pc_le_of_fetch hf
    have htarget : addrOperand (s.pc.setWidth 12) = s.pc := addrOperand_setWidth (by omega)
    exact ⟨_, s.pc.setWidth 12, hf, decode_eq_jp.mpr (by rw [htarget]), htarget⟩

/-- Settles O54, mode by mode. -/
theorem finishedIsHaltedOrAJumpToItself : Obligations.FinishedIsHaltedOrAJumpToItself := by
  intro s
  cases hm : s.mode with
  | halted r => simp [finished_halted hm, State.isHalted_of_halted hm]
  | waitKey k => simp [finished_waitKey hm, State.isHalted, hm]
  | running => simp [finished_running_iff_fetch hm, State.isHalted_of_running hm]

/-! What still moves. -/

/-- `t` is `s` but for the timers, Run's accumulators and the input sample. -/
def Idled (s t : State) : Prop :=
  t = { s with
    dt := t.dt, st := t.st, accStep := t.accStep, accTimer := t.accTimer
    pins := t.pins, pending := t.pending, samples := t.samples }

theorem Idled.refl (s : State) : Idled s s := rfl

theorem Idled.trans (h : Idled s t) (h' : Idled t u) : Idled s u := by
  refine Eq.trans h' ?_
  rw [h]

theorem Idled.sample (s : State) : Idled s s.sample := rfl

theorem Idled.timerDec (s : State) : Idled s s.timerDec := by
  unfold State.timerDec
  split <;> rfl

/-- The end of a run shows in MODE, PC, memory and the font alone. -/
theorem Idled.finished (h : Idled s t) : t.finished = s.finished := (congrArg State.finished h :)

theorem step_of_finished (h : s.finished = true) : step s = .next (if s.isHalted then s else s.sample) := by
  cases hm : s.mode with
  | halted r => rw [step_halted hm, if_pos (State.isHalted_of_halted hm)]
  | waitKey k => exact nomatch h.symm.trans (finished_waitKey hm)
  | running => rw [step_finished hm h, if_neg (Bool.eq_false_iff.mp (State.isHalted_of_running hm))]

/-- After the end of a run a Step does nothing, or takes a sample. -/
theorem step_of_finished_cases (hf : s.finished = true) (h : step s = .next t) : t = s ∨ t = s.sample := by
  cases h.symm.trans (step_of_finished hf)
  split
  · exact .inl rfl
  · exact .inr rfl

/-- Without the accumulators, what is left to move are the timers and the sample. -/
theorem Idled.eq_of_accounts (h : Idled s t) (hstep : t.accStep = s.accStep) (htimer : t.accTimer = s.accTimer) :
    t = { s with dt := t.dt, st := t.st, pins := t.pins, pending := t.pending, samples := t.samples } := by
  refine Eq.trans h ?_
  rw [hstep, htimer]

/-- A run that had ended in `s` and is still ended, at most idled. -/
structure EndedFrom (s t : State) : Prop where
  finished : t.finished = true
  idled : Idled s t

theorem EndedFrom.refl (h : s.finished = true) : EndedFrom s s := ⟨h, .refl s⟩

theorem EndedFrom.trans_idled (h : EndedFrom s t) (h' : Idled t u) : EndedFrom s u :=
  ⟨h'.finished.trans h.finished, h.idled.trans h'⟩

theorem keptByRun_endedFrom (s : State) : KeptByRun (EndedFrom s) where
  step h hstep := by
    rcases step_of_finished_cases h.finished hstep with rfl | rfl
    · exact h
    · exact h.trans_idled (.sample _)
  timerDec h := h.trans_idled (.timerDec _)
  setAccStep _ h := h.trans_idled rfl
  setAccTimer _ h := h.trans_idled rfl

/-- As `EndedFrom`, with the accumulators, which only Run assigns, left alone. -/
structure EndedByTick (s t : State) : Prop extends EndedFrom s t where
  accStep : t.accStep = s.accStep
  accTimer : t.accTimer = s.accTimer

theorem State.timerDec_accounts (s : State) : s.timerDec.accStep = s.accStep ∧ s.timerDec.accTimer = s.accTimer := by
  unfold State.timerDec
  split <;> exact ⟨rfl, rfl⟩

theorem keptByTick_endedByTick (s : State) : KeptByTick (EndedByTick s) where
  step h hstep := by
    rcases step_of_finished_cases h.finished hstep with rfl | rfl
    · exact h
    · exact ⟨h.trans_idled (.sample _), h.accStep, h.accTimer⟩
  timerDec {t} h :=
    ⟨h.trans_idled (.timerDec t), t.timerDec_accounts.1.trans h.accStep, t.timerDec_accounts.2.trans h.accTimer⟩

/-- Settles O55: an ended run idles through the parts of a Tick and of a Run, and a Tick has no part that touches the
accumulators. -/
theorem finishedMachinesStayFinished : Obligations.FinishedMachinesStayFinished := by
  intro s hf
  have hstart := EndedFrom.refl hf
  obtain ⟨u, -, htick⟩ := tickIsStepsThenOneDecrement s
  have hended := (keptByTick_endedByTick s).tick ⟨hstart, rfl, rfl⟩ htick
  refine ⟨step_of_finished hf, (hstart.trans_idled (.sample s)).finished, (hstart.trans_idled (.timerDec s)).finished,
    ⟨_, htick, hended.finished, hended.idled.eq_of_accounts hended.accStep hended.accTimer⟩, fun e t h => ?_⟩
  obtain ⟨hfinished, hidled⟩ := (keptByRun_endedFrom s).run hstart h
  exact ⟨hfinished, hidled⟩

end Sys2Proof.Machine
end
